-- ==== Sys2Proof/Word.lean ====
section
/-! DEFINITION. The word types of the CFB (spec/00_scope.md R7): bytes, 16-bit values and 24-bit command words, all unsigned. -/

namespace Sys2Proof

/-- A byte: bits 7 to 0 (R7). -/
abbrev Byte := BitVec 8

/-- A 16-bit value: bit 15 is the most significant, bit 0 the least (R7). -/
abbrev Half := BitVec 16

/-- A 24-bit command word: `op` in bits 23 to 16, `imm` in bits 15 to 0 (R7, R55). -/
abbrev Cmd := BitVec 24

end Sys2Proof
end

