-- ==== Sys2Proof/Config.lean ====
section
/-! DEFINITION. What is fixed for the machine: the parameters of spec/00_scope.md R4 and R5, the two chip profiles (spec/43_image.md R116), and the free value of a buffer byte nobody has written (spec/10_state.md R21). -/

namespace Sys2Proof

/-- The two chip profiles, P0 and P1; "No other profile exists and none can be configured" (R116). -/
inductive Profile where
  | p0
  | p1
deriving DecidableEq, Repr

namespace Config

/-- `POLY`: the constant XORed into the register when a 1 is shifted out (R4). -/
abbrev poly : Half := 0x1021#16

/-- `CRC_INIT`: the register's value for a fresh computation (R4). -/
abbrev crcInit : Half := 0xFFFF#16

/-- `MAX_BLOCK`: the largest admitted Block length in bytes (R4). -/
abbrev maxBlock : Nat := 2048

/-- `HDR_LEN`: header bytes of a frame (R4). -/
abbrev hdrLen : Nat := 4

/-- `TRL_LEN`: trailer bytes of a frame that has a trailer (R4). -/
abbrev trlLen : Nat := 2

/-- `ERASED`: the flash-erased value, the buffer pre-fill (R4). -/
abbrev erased : Byte := 0xFF#8

/-- `SENTINEL`: the value forced into the last two image bytes (R4). -/
abbrev sentinel : Byte := 0x00#8

/-- `BUF_SIZE`: bytes of the buffer memory BUF (R5). -/
abbrev bufSize : Nat := 0xF000

/-- `IMGSZ(p)`: the image size of a profile in bytes (R4). -/
def imgSize : Profile → Nat
  | .p0 => 0x7000
  | .p1 => 0xF000

/-- `BLKLEN(p)`: the block length of a profile in bytes (R4). -/
def blkLen : Profile → Nat
  | .p0 => 128
  | .p1 => 256

/-- `NBLK(p)` = `IMGSZ(p) / BLKLEN(p)`: 224 or 240 blocks (R4). -/
def nBlk (p : Profile) : Nat := imgSize p / blkLen p

/-- FREE VALUE (R21, R168; 93_implementation_defined.md U4; notes/assumptions/3.md): what the byte of BUF at an address reads
as when no command has written it since the reset that began the given epoch. It has no body: nothing constrains it, and
within one epoch a byte reads the same every time (R35). -/
opaque unspecifiedByte : (epoch : Nat) → (address : Nat) → Byte

end Config

end Sys2Proof
end

