-- ==== Sys2Proof/Machine/Checksum.lean ====
section
/-! DEFINITION. The checksum algorithm of spec/40_crc.md R70 to R73, as pure functions over an immutable list of bytes (R74), and the catalogue algorithm R75 compares it with. -/

namespace Sys2Proof.Machine

/-- The bit step (R70): shift left by one, the input bit enters at bit 0, then XOR with 0x1021 when the bit shifted out,
the old bit 15 alone, was 1. -/
def crcBit (c : Half) (b : Bool) : Half :=
  let r := (c <<< 1) ||| (BitVec.ofBool b).setWidth 16
  if c.getLsbD 15 then r ^^^ Config.poly else r

/-- The bits of a byte in the order the checksum takes them: position 7 down to 0 (R71). -/
def bitsOf (v : Byte) : List Bool :=
  [v.getLsbD 7, v.getLsbD 6, v.getLsbD 5, v.getLsbD 4, v.getLsbD 3, v.getLsbD 2, v.getLsbD 1, v.getLsbD 0]

/-- The byte step (R71): eight bit steps, most significant bit first. -/
def crcByte (c : Half) (v : Byte) : Half := (bitsOf v).foldl crcBit c

/-- The buffer step (R72): byte steps, first byte first. -/
def crcBuf (c : Half) (bytes : List Byte) : Half := bytes.foldl crcByte c

/-- The contract `checksum(bytes, seed)` (R73): the register after the last bit, no final XOR, no reflection. -/
def checksum (bytes : List Byte) (seed : Half) : Half := crcBuf seed bytes

/-- NOT THE MACHINE'S: one bit step of the catalogue algorithm, which XORs when the old top bit differs from the data bit
and shifts in a zero. PRESUMED by the spec "from general knowledge, not in source" (R75, 93_implementation_defined.md G1);
nothing in the machine calls it, it serves the cross-check of R75 (c) (notes/assumptions/1.md). -/
def ccittBit (c : Half) (b : Bool) : Half :=
  if Bool.xor (c.getLsbD 15) b then (c <<< 1) ^^^ Config.poly else c <<< 1

/-- NOT THE MACHINE'S: `ccitt(init, m)` of R75 (c), most significant bit first. -/
def ccittBuf (c : Half) (bytes : List Byte) : Half :=
  bytes.foldl (fun c v => (bitsOf v).foldl ccittBit c) c

end Sys2Proof.Machine
end

