-- ==== Sys2Proof/Syntax.lean ====
section
/-! DEFINITION. The twenty commands of the CFB, one constructor per row of spec/opcode_table.json (spec/30_encoding.md R57), each with its operand at exactly the width its form gives it (R56). -/

namespace Sys2Proof

/-- One command with its operand (R56, R57). -/
inductive Instr where
  /-- `NOP`: do nothing (R130). -/
  | nop
  /-- `RESET`: return the machine to its reset state (R131). -/
  | reset
  /-- `CSEED seed`: load the checksum register (R76). -/
  | cseed (seed : Half)
  /-- `CBIT b`: one bit step of the checksum register (R77). -/
  | cbit (b : Bool)
  /-- `CBYTE v`: one byte step of the checksum register (R78). -/
  | cbyte (v : Byte)
  /-- `CBUF`: run the checksum over a buffer range from the current register (R79). -/
  | cbuf
  /-- `CSUM seed`: the checksum of a buffer range from a seed (R80). -/
  | csum (seed : Half)
  /-- `SETA a`: set the buffer address (R90). -/
  | seta (a : Half)
  /-- `SETN n`: set the checksum byte count (R91). -/
  | setn (n : Half)
  /-- `BFILL`: pre-fill the image with the erased value (R92). -/
  | bfill
  /-- `BSTB v`: store one byte and step the address (R93). -/
  | bstb (v : Byte)
  /-- `BSENT`: force the sentinel bytes (R94). -/
  | bsent
  /-- `SETI i`: set the Block index (R101). -/
  | seti (i : Half)
  /-- `SETL l`: set the Block length (R102). -/
  | setl (l : Half)
  /-- `TRLI t`: give the Block a trailer with an immediate value (R103). -/
  | trli (t : Half)
  /-- `TRLC`: give the Block a trailer equal to the checksum register (R104). -/
  | trlc
  /-- `TRLN`: the Block has no trailer (R105). -/
  | trln
  /-- `FRAME`: compose the Block held in the registers and emit its frame (R106). -/
  | frame
  /-- `PROF p`: select the chip profile; operand 0 is P0, operand 1 is P1 (R117). -/
  | prof (p : Profile)
  /-- `IMAGE`: finalise the image and emit all its frames (R118). -/
  | image
deriving DecidableEq, Repr

end Sys2Proof
end

