-- ==== Sys2Proof/WellFormed.lean ====
section
/-! DEFINITION. The operand forms (spec/30_encoding.md R56), the commands by name, and what makes a written command well formed (R61): an operand exactly where the form has one, and in the form's range. A term of `Instr` is well formed by its types; `Instr.WellFormed` says so, and the checks that can fail are on a written line. -/

namespace Sys2Proof

/-- The operand forms of R56. -/
inductive Form where
  /-- no operand -/
  | n
  /-- a 1-bit operand, `imm[0]` -/
  | i1
  /-- a byte, `imm[7:0]` -/
  | i8
  /-- a 16-bit operand, `imm[15:0]` -/
  | i16
deriving DecidableEq, Repr

/-- How many bits of `imm` a form uses, from bit 0 (R56). -/
def Form.bits : Form → Nat
  | .n => 0
  | .i1 => 1
  | .i8 => 8
  | .i16 => 16

/-- The commands by name, in the order of R57. -/
inductive Op where
  | nop | reset | cseed | cbit | cbyte | cbuf | csum | seta | setn | bfill
  | bstb | bsent | seti | setl | trli | trlc | trln | frame | prof | image
deriving DecidableEq, Repr

/-- Every command, in the order of R57. -/
def Op.all : List Op :=
  [.nop, .reset, .cseed, .cbit, .cbyte, .cbuf, .csum, .seta, .setn, .bfill,
   .bstb, .bsent, .seti, .setl, .trli, .trlc, .trln, .frame, .prof, .image]

/-- The operand form of each command (R57). -/
def Op.form : Op → Form
  | .nop | .reset | .cbuf | .bfill | .bsent | .trlc | .trln | .frame | .image => .n
  | .cbit | .prof => .i1
  | .cbyte | .bstb => .i8
  | .cseed | .csum | .seta | .setn | .seti | .setl | .trli => .i16

/-- Which command an instruction is. -/
def Instr.op : Instr → Op
  | .nop => .nop
  | .reset => .reset
  | .cseed _ => .cseed
  | .cbit _ => .cbit
  | .cbyte _ => .cbyte
  | .cbuf => .cbuf
  | .csum _ => .csum
  | .seta _ => .seta
  | .setn _ => .setn
  | .bfill => .bfill
  | .bstb _ => .bstb
  | .bsent => .bsent
  | .seti _ => .seti
  | .setl _ => .setl
  | .trli _ => .trli
  | .trlc => .trlc
  | .trln => .trln
  | .frame => .frame
  | .prof _ => .prof
  | .image => .image

/-- The operand bit of `PROF`: 0 selects P0, 1 selects P1 (R117). -/
def Profile.bit : Profile → Bool
  | .p0 => false
  | .p1 => true

/-- The value of an instruction's operand, 0 where it has none (R56: "Operands are unsigned and used as they are"). -/
def Instr.operand : Instr → Nat
  | .nop | .reset | .cbuf | .bfill | .bsent | .trlc | .trln | .frame | .image => 0
  | .cbit b => b.toNat
  | .prof p => p.bit.toNat
  | .cbyte v | .bstb v => v.toNat
  | .cseed v | .csum v | .seta v | .setn v | .seti v | .setl v | .trli v => v.toNat

/-- An instruction's operand fits its form (R56). Every term of `Instr` is well formed, by the types of its operands. -/
abbrev Instr.WellFormed (i : Instr) : Prop := i.operand < 2 ^ i.op.form.bits

/-- A written command, before it is assembled: a mnemonic and, if written, an operand (R61). -/
structure Line where
  op : Op
  operand : Option Nat
deriving DecidableEq, Repr

/-- "Form `N` commands have no operand"; the others have one (R61). -/
def Line.operandPresent (l : Line) : Bool := l.operand.isSome == (l.op.form != .n)

/-- The operand is in the range of the form (R61: out of range "is an assembly error"). -/
def Line.operandInRange (l : Line) : Bool := decide (l.operand.getD 0 < 2 ^ l.op.form.bits)

/-- A written command that assembles (R61). -/
def Line.wellFormed (l : Line) : Bool := l.operandPresent && l.operandInRange

end Sys2Proof
end

