-- ==== Sys2Proof/Decode.lean ====
section
/-! DEFINITION. The command encoding (spec/30_encoding.md R55 to R60): the fields of a word, the opcode map, the decoder, total on 24-bit words and rejecting by name, and the encoder. -/

namespace Sys2Proof

/-- `op = cmd[23:16]` (R55). -/
def opField (w : Cmd) : Byte := w.extractLsb' 16 8

/-- `imm = cmd[15:0]` (R55). -/
def immField (w : Cmd) : Half := w.extractLsb' 0 16

/-- The word with a given `op` and `imm` (R55). -/
def packWord (op : Byte) (imm : Half) : Cmd := op ++ imm

/-- The opcode of each command (R57). -/
def Op.code : Op → Byte
  | .nop => 0x00#8
  | .reset => 0x01#8
  | .cseed => 0x10#8
  | .cbit => 0x11#8
  | .cbyte => 0x12#8
  | .cbuf => 0x13#8
  | .csum => 0x14#8
  | .seta => 0x20#8
  | .setn => 0x21#8
  | .bfill => 0x22#8
  | .bstb => 0x23#8
  | .bsent => 0x24#8
  | .seti => 0x30#8
  | .setl => 0x31#8
  | .trli => 0x32#8
  | .trlc => 0x33#8
  | .trln => 0x34#8
  | .frame => 0x35#8
  | .prof => 0x40#8
  | .image => 0x41#8

/-- The command with a given opcode, if one is assigned (R57, R58 (a)). -/
def Op.ofCode? (c : Byte) : Option Op := Op.all.find? (fun o => o.code == c)

/-- The bits of `imm` that a form requires to be zero (R56). -/
def Form.mustBeZero : Form → Half
  | .n => 0xFFFF#16
  | .i1 => 0xFFFE#16
  | .i8 => 0xFF00#16
  | .i16 => 0x0000#16

/-- The profile that `PROF`'s operand bit selects (R117). -/
def profileOfBit (b : Bool) : Profile := if b then .p1 else .p0

/-- The command with its operand taken from `imm` as its form says (R56): `imm[0]`, `imm[7:0]` or `imm[15:0]`. -/
def Op.withImm (imm : Half) : Op → Instr
  | .nop => .nop
  | .reset => .reset
  | .cseed => .cseed imm
  | .cbit => .cbit (imm.getLsbD 0)
  | .cbyte => .cbyte (imm.extractLsb' 0 8)
  | .cbuf => .cbuf
  | .csum => .csum imm
  | .seta => .seta imm
  | .setn => .setn imm
  | .bfill => .bfill
  | .bstb => .bstb (imm.extractLsb' 0 8)
  | .bsent => .bsent
  | .seti => .seti imm
  | .setl => .setl imm
  | .trli => .trli imm
  | .trlc => .trlc
  | .trln => .trln
  | .frame => .frame
  | .prof => .prof (profileOfBit (imm.getLsbD 0))
  | .image => .image

/-- Why a word is illegal (R58). -/
inductive DecodeError where
  /-- R58 (a): "its `op` is not one of the twenty values". -/
  | unassignedOpcode
  /-- R58 (b): "its `op` is assigned but a must-be-zero bit of its form is 1". -/
  | mustBeZeroBitSet
deriving DecidableEq, Repr

/-- Decoding: a total function of the word alone (R58, R59). -/
def decode (w : Cmd) : Except DecodeError Instr :=
  match Op.ofCode? (opField w) with
  | none => .error .unassignedOpcode
  | some o =>
    if immField w &&& o.form.mustBeZero = 0#16 then .ok (o.withImm (immField w))
    else .error .mustBeZeroBitSet

/-- The immediate that holds an instruction's operand, the bits its form does not use being zero (R56). -/
def Instr.imm : Instr → Half
  | .nop | .reset | .cbuf | .bfill | .bsent | .trlc | .trln | .frame | .image => 0#16
  | .cbit b => (BitVec.ofBool b).setWidth 16
  | .prof p => (BitVec.ofBool p.bit).setWidth 16
  | .cbyte v | .bstb v => v.setWidth 16
  | .cseed v | .csum v | .seta v | .setn v | .seti v | .setl v | .trli v => v

/-- The one word of an instruction (R59, R61). -/
def encode (i : Instr) : Cmd := packWord i.op.code i.imm

/-- The `match` column of R57, written out from the table independently of the decoder. -/
def Op.matchBits : Op → Cmd
  | .nop => 0x000000#24
  | .reset => 0x010000#24
  | .cseed => 0x100000#24
  | .cbit => 0x110000#24
  | .cbyte => 0x120000#24
  | .cbuf => 0x130000#24
  | .csum => 0x140000#24
  | .seta => 0x200000#24
  | .setn => 0x210000#24
  | .bfill => 0x220000#24
  | .bstb => 0x230000#24
  | .bsent => 0x240000#24
  | .seti => 0x300000#24
  | .setl => 0x310000#24
  | .trli => 0x320000#24
  | .trlc => 0x330000#24
  | .trln => 0x340000#24
  | .frame => 0x350000#24
  | .prof => 0x400000#24
  | .image => 0x410000#24

/-- The `mask` column of R57, written out from the table independently of the decoder. -/
def Op.maskBits : Op → Cmd
  | .nop => 0xFFFFFF#24
  | .reset => 0xFFFFFF#24
  | .cseed => 0xFF0000#24
  | .cbit => 0xFFFFFE#24
  | .cbyte => 0xFFFF00#24
  | .cbuf => 0xFFFFFF#24
  | .csum => 0xFF0000#24
  | .seta => 0xFF0000#24
  | .setn => 0xFF0000#24
  | .bfill => 0xFFFFFF#24
  | .bstb => 0xFFFF00#24
  | .bsent => 0xFFFFFF#24
  | .seti => 0xFF0000#24
  | .setl => 0xFF0000#24
  | .trli => 0xFF0000#24
  | .trlc => 0xFFFFFF#24
  | .trln => 0xFFFFFF#24
  | .frame => 0xFFFFFF#24
  | .prof => 0xFFFFFE#24
  | .image => 0xFFFFFF#24

/-- The word a host lays out from the opcode table's bit numbering: the CFB's command word is one 24-bit word (R55), so bit
`k` of `w` is bit `k` of the word, and the bits above `nbits` are zero. -/
def tableWord (nbits w : Nat) : Cmd := BitVec.ofNat 24 (w % 2 ^ nbits)

/-- The instruction the decoder reads from the bits `w` of an opcode-table row, none where it rejects them. -/
def decodeTableWord (nbits w : Nat) : Option Instr :=
  match decode (tableWord nbits w) with
  | .ok i => some i
  | .error _ => none

end Sys2Proof
end

