-- ==== Sys2Proof/Machine/State.lean ====
section
/-! DEFINITION. The state of the CFB as plain data (spec/10_state.md R10): the ten registers, BUF, OUT, the modelling index pc, and the model's own two fields, the host's command list and the epoch of BUF's unspecified contents. State.reset is the machine right after power-on (R29, R166 to R168). -/

namespace Sys2Proof.Machine

/-- BUF as data: the bytes written since the last reset, addresses strictly rising. An address that is not listed holds no
byte that any command wrote (notes/assumptions/3.md, 4.md). -/
abbrev Memory := List Host.Cell

/-- The canonical form of BUF: addresses strictly rising, and every address one that exists (R21, R30). An unlisted address
has no value of its own in the data, so no entry can equal one. -/
abbrev Memory.wf (m : Memory) : Prop :=
  m.Pairwise (fun p q => p.1 < q.1) ∧ ∀ c ∈ m, c.1 < Config.bufSize

/-- The four faults of R140, latched in FAULT as a next state; none of them stops the model. -/
inductive FaultCode where
  /-- ILLEGAL: the word is an illegal encoding (R141). -/
  | illegal
  /-- LENGTH: FRAME with `LEN > 2048` (R142). -/
  | length
  /-- BOUNDS: BSTB, CBUF, CSUM or FRAME would access BUF at or above 0xF000 (R143). -/
  | bounds
  /-- PROFILE: BFILL, BSENT or IMAGE with no profile selected (R144). -/
  | profile
deriving DecidableEq, Repr

/-- The reasons the MODEL stops with a fault: none. The CFB's own faults (R140) have an entry the spec describes (R147), so
taking one is a next state, and no other condition of the spec ends a step: "every word in every state has exactly one
outcome" (R132). Safe: nothing is left out by it (notes/assumptions/8.md). -/
inductive Fault
deriving DecidableEq, Repr

/-- The reasons the model refuses an instruction. -/
inductive Refusal where
  /-- Raised only by an arm of `exec` for an instruction without a meaning, by its mnemonic; no arm does so now. Safe. -/
  | notModelled (mnemonic : String)
deriving DecidableEq, Repr

/-- The state of the CFB (R10), with pc (R22) and the model's own `cmds` and `bufEpoch`. -/
structure State where
  /-- `CRC`, the checksum shift register (R11). -/
  crc : Half
  /-- `ADDR`, the buffer address operand (R12). -/
  addr : Half
  /-- `CNT`, the byte-count operand of the checksum (R13). -/
  cnt : Half
  /-- `IDX`, the Block index (R14). -/
  idx : Half
  /-- `LEN`, the Block length in payload bytes (R15). -/
  len : Half
  /-- `TRL`, the Block trailer value (R16). -/
  trl : Half
  /-- `TEN`, the one-bit trailer-present flag (R17). -/
  ten : Bool
  /-- `PROF`: `V` is bit 1, `S` is bit 0 (R18). -/
  prof : BitVec 2
  /-- `FAULT`, the fault code; 0 is no fault (R19). -/
  fault : Byte
  /-- `FINFO`, the command word that faulted (R19). -/
  finfo : Cmd
  /-- `BUF`, the byte buffer (R21). -/
  buf : Memory
  /-- `OUT`, every frame emitted so far, oldest first (R20). -/
  out : List (List Byte)
  /-- The index of the next word in the host's command list (R22). -/
  pc : Nat
  /-- MODEL'S OWN: the host's command list of this run (R22, R25; notes/assumptions/5.md). -/
  cmds : List Cmd
  /-- MODEL'S OWN: how many resets have made BUF unspecified; it selects the free value (notes/assumptions/3.md). -/
  bufEpoch : Nat
deriving DecidableEq, Repr

/-- The machine at power-on: the register values of R29 and R166, BUF unspecified, `OUT = []`, `pc = 0` (R168), and no
command presented yet. -/
def State.reset : State where
  crc := 0xFFFF#16
  addr := 0#16
  cnt := 0#16
  idx := 0#16
  len := 0#16
  trl := 0#16
  ten := false
  prof := 0b00#2
  fault := 0x00#8
  finfo := 0x000000#24
  buf := []
  out := []
  pc := 0
  cmds := []
  bufEpoch := 0

/-- The outcome of one step of the CFB. -/
abbrev Result := Host.Outcome State Fault Refusal

/-- What a command's own rule gives: the state with the rule's writes, or the fault it raises (R132). -/
abbrev Rule := State → Except FaultCode State

/-- The registers of the table of R10, by name. -/
inductive Reg where
  | crc | addr | cnt | idx | len | trl | ten | prof | fault | finfo
deriving DecidableEq, Repr

end Sys2Proof.Machine
end

