-- ==== Sys2Proof/Machine/Flags.lean ====
section
/-! DEFINITION. The one flag, TEN, with the trailer value it guards (spec/10_state.md R17), and the fault codes of spec/60_exceptions.md R140. There are no condition codes (R17). -/

namespace Sys2Proof.Machine

/-- The number FAULT takes for each fault (R140). -/
def FaultCode.code : FaultCode → Byte
  | .illegal => 0x01#8
  | .length => 0x02#8
  | .bounds => 0x03#8
  | .profile => 0x04#8

/-- `TRL <- t; TEN <- 1`: the Block carries a trailer (R103, R104). -/
def setTrailer (t : Half) (s : State) : State := { s with trl := t, ten := true }

/-- `TEN <- 0`; TRL keeps its value (R105). -/
def clearTrailer (s : State) : State := { s with ten := false }

/-- The trailer of the Block held in the registers: TRL when `TEN = 1`, absent when `TEN = 0` (R27). -/
def trailerOf (s : State) : Option Half := if s.ten then some s.trl else none

end Sys2Proof.Machine
end

