-- ==== Sys2Proof/Machine/FrameFormat.lean ====
section
/-! DEFINITION. The frame encoding of spec/30_encoding.md R50 to R53: header big-endian, payload, optional trailer low byte first; and how a frame is read back. -/

namespace Sys2Proof.Machine

/-- `hi8(v) = v[15:8]` (R7). -/
def hi8 (v : Half) : Byte := v.extractLsb' 8 8

/-- `lo8(v) = v[7:0]` (R7). -/
def lo8 (v : Half) : Byte := v.extractLsb' 0 8

/-- `hdr(i, l)`: both fields big-endian (R50). -/
def hdr (i l : Half) : List Byte := [hi8 i, lo8 i, hi8 l, lo8 l]

/-- `trl(t)`: low byte first (R51). -/
def trl (t : Half) : List Byte := [lo8 t, hi8 t]

/-- `frame(i, l, pay, t?)` (R52). -/
def frameBytes (i l : Half) (pay : List Byte) : Option Half → List Byte
  | some t => hdr i l ++ pay ++ trl t
  | none => hdr i l ++ pay

/-- Two bytes as a 16-bit value, the first the more significant. -/
def half (hi lo : Byte) : Half := hi ++ lo

/-- A Block (R27): index, length, payload, optional trailer. -/
structure Block where
  index : Half
  length : Half
  payload : List Byte
  trailer : Option Half
deriving DecidableEq, Repr

/-- Reading a frame back (R53): the trailer is present exactly when two bytes follow the payload. None for a byte list that
is no frame. -/
def readFrame : List Byte → Option Block
  | i1 :: i0 :: l1 :: l0 :: rest =>
    let l := half l1 l0
    match rest.drop l.toNat with
    | [] => if rest.length = l.toNat then some ⟨half i1 i0, l, rest, none⟩ else none
    | [t0, t1] => some ⟨half i1 i0, l, rest.take l.toNat, some (half t1 t0)⟩
    | _ => none
  | _ => none

end Sys2Proof.Machine
end

