-- ==== Sys2Proof/Machine/Ops.lean ====
section
/-! DEFINITION. The operations every command is written over: BUF accesses (spec/20_memory.md), emitting a frame (spec/10_state.md R20), the reset (spec/70_reset_and_hazards.md R166), fault entry and the common execution rule (spec/60_exceptions.md R147, spec/44_system.md R132), and fetching the next word of the host's list (R22). -/

namespace Sys2Proof.Machine

/-! ### BUF -/

/-- The byte written at an address since the last reset, if one was. The list is sorted, so the search stops at the first
larger address. -/
def Memory.lookup : Memory → Nat → Option Byte
  | [], _ => none
  | (a, v) :: m, x => if a < x then Memory.lookup m x else if a = x then some v else none

/-- The memory with one byte written, in its place in the order. -/
def Memory.insert : Memory → Nat → Byte → Memory
  | [], x, v => [(x, v)]
  | (a, w) :: m, x, v =>
    if a < x then (a, w) :: Memory.insert m x v
    else if a = x then (x, v) :: m
    else (x, v) :: (a, w) :: m

/-- The memory with the bytes `0 .. n-1` all equal to `v` and the others as they were. -/
def Memory.fill (m : Memory) (n : Nat) (v : Byte) : Memory :=
  (List.range n).map (fun a => (a, v)) ++ m.filter (fun c => n ≤ c.1)

/-- The bytes at `a, a+1, ..., a+n-1`, in one walk along the sorted list; an address that is not listed gives `free`. -/
def Memory.readRange (free : Nat → Byte) : Memory → Nat → Nat → List Byte
  | _, _, 0 => []
  | m, a, n + 1 =>
    match m.dropWhile (fun c => c.1 < a) with
    | [] => free a :: Memory.readRange free [] (a + 1) n
    | (x, v) :: rest =>
      if x = a then v :: Memory.readRange free rest (a + 1) n
      else free a :: Memory.readRange free ((x, v) :: rest) (a + 1) n

/-- `MemRead(a, 1)`: the byte of BUF at `a`; a byte nobody has written since the last reset is the free value of its
address (R7, R21, R33). Reading has no side effect (R35). -/
def readByte (s : State) (a : Nat) : Byte :=
  (Memory.lookup s.buf a).getD (Config.unspecifiedByte s.bufEpoch a)

/-- `BUF[a .. a+n-1]`, the first byte at `a` (R7). -/
def readSlice (s : State) (a n : Nat) : List Byte :=
  Memory.readRange (Config.unspecifiedByte s.bufEpoch) s.buf a n

/-- `MemWrite(a, 1, v)` (R7, R33). -/
def writeByte (a : Nat) (v : Byte) (s : State) : State := { s with buf := Memory.insert s.buf a v }

/-- `for a = 0 to n-1: MemWrite(a, 1, v)`; "The order in which the bytes are written cannot be observed" (R92). -/
def fillBytes (n : Nat) (v : Byte) (s : State) : State := { s with buf := Memory.fill s.buf n v }

/-! ### OUT -/

/-- `Emit(f)`: append `f`, as one frame, to the end of OUT (R7, R20). -/
def emit (f : List Byte) (s : State) : State := { s with out := s.out ++ [f] }

/-- Serialise the Block held in the registers and emit its frame (R27, R100, R106). -/
def composeFrame (s : State) : State :=
  emit (frameBytes s.idx s.len (readSlice s s.addr.toNat s.len.toNat) (trailerOf s)) s

/-! ### Reset -/

/-- The reset operation (R166): every register to its reset value, every byte of BUF unspecified again, OUT not changed.
pc and the host's list are not hardware state and stay (R22). -/
def resetState (s : State) : State :=
  { s with
    crc := 0xFFFF#16, addr := 0#16, cnt := 0#16, idx := 0#16, len := 0#16, trl := 0#16, ten := false, prof := 0b00#2,
    fault := 0x00#8, finfo := 0x000000#24, buf := [], bufEpoch := s.bufEpoch + 1 }

/-! ### Faults and the common execution rule -/

/-- Fault entry (R147): `FAULT <- c; FINFO <- cmd`; nothing else changes, pc stays at the faulting command. There is no
handler and no saved state; the way out is the reset (R149), which is `resetState`. -/
def raise (c : FaultCode) (w : Cmd) (s : State) : State := { s with fault := c.code, finfo := w }

/-- The machine is halted while `FAULT != 0` (R148). -/
abbrev State.halted (s : State) : Prop := s.fault ≠ 0x00#8

/-- The common execution rule for a command other than RESET (R132). Halted: the word is not taken and nothing changes.
Running: the rule's writes take effect and `pc <- pc + 1`, or its fault is entered with the command's own word. -/
def perform (i : Instr) (rule : Rule) (s : State) : Result :=
  if s.halted then .next s
  else
    match rule s with
    | .ok t => .next { t with pc := s.pc + 1 }
    | .error c => .next (raise c (encode i) s)

/-- RESET is taken whether or not the machine is halted (R131, R132). -/
def performReset (s : State) : Result := .next { resetState s with pc := s.pc + 1 }

/-- An illegal word (R132, R141): ILLEGAL when the machine runs; not taken when it is halted. -/
def illegalWord (w : Cmd) (s : State) : Result :=
  if s.halted then .next s else .next (raise .illegal w s)

/-- No word is presented: the machine is idle and keeps all state (R160; notes/assumptions/6.md). -/
def idle (s : State) : Result := .next s

/-! ### The host's command list -/

/-- The word at index pc of the host's list, if the list has one (R22, R132). -/
def fetch (s : State) : Option Cmd := s.cmds[s.pc]?

/-- The list with the word at index `k` replaced, or appended after enough NOP words if the list is shorter. -/
def placeWord (cmds : List Cmd) (k : Nat) (w : Cmd) : List Cmd :=
  cmds.take k ++ List.replicate (k - cmds.length) 0x000000#24 ++ w :: cmds.drop (k + 1)

end Sys2Proof.Machine
end

