-- ==== Sys2Proof/Machine/Operands.lean ====
section
/-! DEFINITION. Where the commands take their operands from besides the word itself: the selected profile (spec/10_state.md R18) and the four ways of forming a buffer address (spec/41_buffer.md R95), with the check each has before any effect (spec/20_memory.md R36). The operand forms of the word are in Decode. -/

namespace Sys2Proof.Machine

/-- `PROF.V`: a profile is selected (R10, R18). -/
def profV (prof : BitVec 2) : Bool := prof.getLsbD 1

/-- `PROF.S`: which profile (R10, R18). -/
def profS (prof : BitVec 2) : Bool := prof.getLsbD 0

/-- The profile PROF selects; none while `PROF.V = 0` (R18). -/
def selectedProfile (prof : BitVec 2) : Option Profile :=
  if profV prof then some (profileOfBit (profS prof)) else none

/-- `PROF.V <- 1; PROF.S <- p` (R117). -/
def profOf (p : Profile) : BitVec 2 := BitVec.ofBool true ++ BitVec.ofBool p.bit

/-- A range of `n` bytes from `a` lies in BUF: `a + n <= BUF_SIZE`, a sum of natural numbers that never wraps (R36). -/
abbrev rangeInBuf (a n : Nat) : Prop := a + n ≤ Config.bufSize

/-- A byte address that exists: `a < BUF_SIZE` (R36). -/
abbrev addrInBuf (a : Nat) : Prop := a < Config.bufSize

/-- R95 (b), register range: the bytes `BUF[ADDR + k]` for `k = 0 .. n-1`, or BOUNDS before any of them is read. -/
def addrRange (n : Half) (s : State) : Except FaultCode (List Byte) :=
  if rangeInBuf s.addr.toNat n.toNat then .ok (readSlice s s.addr.toNat n.toNat) else .error .bounds

/-- A rule that needs a profile: PROFILE while none is selected, before any write (R144). -/
def withProfile (k : Profile → State → State) : Rule := fun s =>
  match selectedProfile s.prof with
  | some p => .ok (k p s)
  | none => .error .profile

/-- R95 (a), register direct with post-increment: BOUNDS before the write, else write at ADDR and `ADDR <- ADDR + 1`
(R93). -/
def storePostIncrement (v : Byte) : Rule := fun s =>
  if addrInBuf s.addr.toNat then .ok { writeByte s.addr.toNat v s with addr := s.addr + 1#16 } else .error .bounds

/-- R95 (c), profile-fixed: the two sentinel bytes, the last two of the image (R94). -/
def forceSentinel (p : Profile) (s : State) : State :=
  writeByte (Config.imgSize p - 1) Config.sentinel (writeByte (Config.imgSize p - 2) Config.sentinel s)

end Sys2Proof.Machine
end

