-- ==== Sys2Proof/Machine/Buffer.lean ====
section
/-! DEFINITION. The buffer commands SETA, SETN, BFILL, BSTB, BSENT (spec/41_buffer.md R90 to R94). -/

namespace Sys2Proof.Machine

/-- SETA: `ADDR <- imm` (R90). -/
def execSeta (a : Half) (s : State) : Result := perform (.seta a) (fun s => .ok { s with addr := a }) s

/-- SETN: `CNT <- imm` (R91). -/
def execSetn (n : Half) (s : State) : Result := perform (.setn n) (fun s => .ok { s with cnt := n }) s

/-- BFILL: PROFILE, or the image bytes `0 .. IMGSZ-1` all 0xFF (R92). -/
def execBfill (s : State) : Result :=
  perform .bfill (withProfile (fun p s => fillBytes (Config.imgSize p) Config.erased s)) s

/-- BSTB: BOUNDS, or `BUF[ADDR] <- imm[7:0]; ADDR <- ADDR + 1` (R93). -/
def execBstb (v : Byte) (s : State) : Result := perform (.bstb v) (storePostIncrement v) s

/-- BSENT: PROFILE, or the two sentinel writes (R94). -/
def execBsent (s : State) : Result := perform .bsent (withProfile forceSentinel) s

end Sys2Proof.Machine
end

