-- ==== Sys2Proof/Machine/Composer.lean ====
section
/-! DEFINITION. The frame commands SETI, SETL, TRLI, TRLC, TRLN, FRAME (spec/42_frame.md R101 to R106). -/

namespace Sys2Proof.Machine

/-- SETI: `IDX <- imm` (R101). -/
def execSeti (i : Half) (s : State) : Result := perform (.seti i) (fun s => .ok { s with idx := i }) s

/-- SETL: `LEN <- imm` (R102). -/
def execSetl (l : Half) (s : State) : Result := perform (.setl l) (fun s => .ok { s with len := l }) s

/-- TRLI: `TRL <- imm; TEN <- 1` (R103). -/
def execTrli (t : Half) (s : State) : Result := perform (.trli t) (fun s => .ok (setTrailer t s)) s

/-- TRLC: `TRL <- CRC; TEN <- 1` (R104). -/
def execTrlc (s : State) : Result := perform .trlc (fun s => .ok (setTrailer s.crc s)) s

/-- TRLN: `TEN <- 0` (R105). -/
def execTrln (s : State) : Result := perform .trln (fun s => .ok (clearTrailer s)) s

/-- The checks of FRAME, LENGTH before BOUNDS (R106, R150), then the frame. -/
def frameRule : Rule := fun s =>
  if Config.maxBlock < s.len.toNat then .error .length
  else if rangeInBuf s.addr.toNat s.len.toNat then .ok (composeFrame s)
  else .error .bounds

/-- FRAME: compose the Block held in the registers and emit its frame (R106). -/
def execFrame (s : State) : Result := perform .frame frameRule s

end Sys2Proof.Machine
end

