-- ==== Sys2Proof/Machine/Crc.lean ====
section
/-! DEFINITION. The checksum commands CSEED, CBIT, CBYTE, CBUF, CSUM (spec/40_crc.md R76 to R80). -/

namespace Sys2Proof.Machine

/-- CSEED: `CRC <- imm` (R76). -/
def execCseed (seed : Half) (s : State) : Result := perform (.cseed seed) (fun s => .ok { s with crc := seed }) s

/-- CBIT: `CRC <- crc_bit(CRC, imm[0])` (R77). -/
def execCbit (b : Bool) (s : State) : Result := perform (.cbit b) (fun s => .ok { s with crc := crcBit s.crc b }) s

/-- CBYTE: `CRC <- crc_byte(CRC, imm[7:0])` (R78). -/
def execCbyte (v : Byte) (s : State) : Result := perform (.cbyte v) (fun s => .ok { s with crc := crcByte s.crc v }) s

/-- `CRC <- crc_buf(seed, BUF[ADDR .. ADDR+CNT-1])`, BOUNDS before anything is read (R79, R80). -/
def checksumRange (seed : Half) : Rule := fun s =>
  match addrRange s.cnt s with
  | .ok bytes => .ok { s with crc := checksum bytes seed }
  | .error c => .error c

/-- CBUF: the checksum of the range, from the current register (R79). -/
def execCbuf (s : State) : Result := perform .cbuf (fun s => checksumRange s.crc s) s

/-- CSUM: the checksum of the range, from the seed (R80). -/
def execCsum (seed : Half) (s : State) : Result := perform (.csum seed) (checksumRange seed) s

end Sys2Proof.Machine
end

