-- ==== Sys2Proof/Machine/Image.lean ====
section
/-! DEFINITION. PROF and IMAGE (spec/43_image.md R117, R118): the profile register, and the finalisation of a whole image (sentinel bytes, checksum of the image, one frame per block, the trailer on the last). -/

namespace Sys2Proof.Machine

/-- PROF: `PROF.V <- 1; PROF.S <- imm[0]` (R117). -/
def execProf (p : Profile) (s : State) : Result := perform (.prof p) (fun s => .ok { s with prof := profOf p }) s

/-- Step 2 of IMAGE (R118): `ADDR <- 0; CNT <- S; CRC <- crc_buf(0xFFFF, BUF[0 .. S-1])`. -/
def imageChecksum (p : Profile) (s : State) : State :=
  { s with
    addr := 0#16, cnt := BitVec.ofNat 16 (Config.imgSize p),
    crc := checksum (readSlice s 0 (Config.imgSize p)) Config.crcInit }

/-- Block `k` of step 3 of IMAGE (R118): its index, address and length in the registers, the trailer on the last block only,
then its frame, whose payload is `BUF[k*L .. k*L+L-1]`. -/
def imageBlock (p : Profile) (s : State) (k : Nat) : State :=
  let s := { s with
    idx := BitVec.ofNat 16 k, addr := BitVec.ofNat 16 (k * Config.blkLen p), len := BitVec.ofNat 16 (Config.blkLen p) }
  composeFrame (if k + 1 = Config.nBlk p then setTrailer s.crc s else clearTrailer s)

/-- The three steps of IMAGE, for `k = 0` to `N - 1` in step 3 (R118). -/
def imageSteps (p : Profile) (s : State) : State :=
  (List.range (Config.nBlk p)).foldl (imageBlock p) (imageChecksum p (forceSentinel p s))

/-- IMAGE: PROFILE, or the three steps (R118). -/
def execImage (s : State) : Result := perform .image (withProfile imageSteps) s

/-- The command sequence that IMAGE equals under a profile (R122). -/
def imageExpansion (p : Profile) : List Instr :=
  let L := Config.blkLen p
  let last := Config.nBlk p - 1
  [.bsent, .seta 0#16, .setn (BitVec.ofNat 16 (Config.imgSize p)), .csum 0xFFFF#16]
    ++ (List.range last).flatMap (fun k =>
      [.seti (BitVec.ofNat 16 k), .seta (BitVec.ofNat 16 (k * L)), .setl (BitVec.ofNat 16 L), .trln, .frame])
    ++ [.seti (BitVec.ofNat 16 last), .seta (BitVec.ofNat 16 (last * L)), .setl (BitVec.ofNat 16 L), .trlc, .frame]

end Sys2Proof.Machine
end

