-- ==== Sys2Proof/Machine/System.lean ====
section
/-! DEFINITION. The system commands NOP and RESET (spec/44_system.md R130, R131). -/

namespace Sys2Proof.Machine

/-- NOP: no effect but the pc (R130). -/
def execNop (s : State) : Result := perform .nop (fun s => .ok s) s

/-- RESET: the reset of R166, running or halted (R131). -/
def execReset (s : State) : Result := performReset s

end Sys2Proof.Machine
end

