-- ==== Sys2Proof/Machine/Dispatch.lean ====
section
/-! DEFINITION. One arm per command, each a call of its meaning (spec/30_encoding.md R57). -/

namespace Sys2Proof.Machine

def exec (i : Instr) (s : State) : Host.Outcome State Fault Refusal :=
  match i with
  | .nop => Sys2Proof.Machine.execNop s
  | .reset => Sys2Proof.Machine.execReset s
  | .cseed seed => Sys2Proof.Machine.execCseed seed s
  | .cbit b => Sys2Proof.Machine.execCbit b s
  | .cbyte v => Sys2Proof.Machine.execCbyte v s
  | .cbuf => Sys2Proof.Machine.execCbuf s
  | .csum seed => Sys2Proof.Machine.execCsum seed s
  | .seta a => Sys2Proof.Machine.execSeta a s
  | .setn n => Sys2Proof.Machine.execSetn n s
  | .bfill => Sys2Proof.Machine.execBfill s
  | .bstb v => Sys2Proof.Machine.execBstb v s
  | .bsent => Sys2Proof.Machine.execBsent s
  | .seti x => Sys2Proof.Machine.execSeti x s
  | .setl l => Sys2Proof.Machine.execSetl l s
  | .trli t => Sys2Proof.Machine.execTrli t s
  | .trlc => Sys2Proof.Machine.execTrlc s
  | .trln => Sys2Proof.Machine.execTrln s
  | .frame => Sys2Proof.Machine.execFrame s
  | .prof p => Sys2Proof.Machine.execProf p s
  | .image => Sys2Proof.Machine.execImage s

end Sys2Proof.Machine
end

