-- ==== Sys2Proof/Machine/Step.lean ====
section
/-! DEFINITION. One step of the machine for the word at index pc of the host's list (spec/44_system.md R132), and how the host of this package places one word there. -/

namespace Sys2Proof.Machine

/-- One step (R132): fetch the next word of the list, decode it, execute its rule; an illegal word raises ILLEGAL. The halt
check stands in each of the three, since it comes first for all of them. With no word left the machine is idle (R160). -/
def step (s : State) : Host.Outcome State Fault Refusal :=
  match fetch s with
  | none => idle s
  | some w =>
    match decode w with
    | .ok i => exec i s
    | .error _ => illegalWord w s

/-- The state with the word `w` of an opcode-table row as the next word of the host's list (notes/assumptions/5.md). -/
def State.withFetchWord (s : State) (nbits w : Nat) : State :=
  { s with cmds := placeWord s.cmds s.pc (tableWord nbits w) }

end Sys2Proof.Machine
end

