-- ==== Sys2Proof/Machine/Assembler.lean ====
section
/-! DEFINITION. The assembler of spec/30_encoding.md R61 and R62: the written form of a command, the five pseudo-instructions and their expansions. The hardware never sees it; the spec's programs are written in it. -/

namespace Sys2Proof.Machine

/-- The pseudo-instructions of R62; LOAD has at least one data byte. -/
inductive Pseudo where
  | checksum (a n seed : Half)
  | load (a : Half) (first : Byte) (more : List Byte)
  | block (i a l : Half)
  | blockt (i a l t : Half)
  | begin (p : Profile)
deriving DecidableEq, Repr

/-- The command sequence a pseudo-instruction stands for (R62). -/
def Pseudo.expand : Pseudo → List Instr
  | .checksum a n seed => [.seta a, .setn n, .csum seed]
  | .load a first more => .seta a :: (first :: more).map Instr.bstb
  | .block i a l => [.seti i, .seta a, .setl l, .trln, .frame]
  | .blockt i a l t => [.seti i, .seta a, .setl l, .trli t, .frame]
  | .begin p => [.prof p, .bfill]

/-- Why a line does not assemble (R61: "an assembly error, not an illegal word"). -/
inductive AsmError where
  /-- no command and no pseudo-instruction has this mnemonic -/
  | unknownMnemonic
  /-- an operand that is neither decimal nor `0x` hexadecimal -/
  | badNumber
  /-- an operand missing or in excess -/
  | operandCount
  /-- an operand out of range for its form or its pseudo-instruction -/
  | operandOutOfRange
deriving DecidableEq, Repr

/-- A written command as an instruction: the two checks of R61, then the operand's value in its form. -/
def assembleLine (l : Line) : Except AsmError Instr :=
  if l.operandPresent = false then .error .operandCount
  else if l.operandInRange = false then .error .operandOutOfRange
  else .ok (l.op.withImm (BitVec.ofNat 16 (l.operand.getD 0)))

/-- The mnemonic of each command, in capitals (R57, R61). -/
def Op.mnemonic : Op → String
  | .nop => "NOP"
  | .reset => "RESET"
  | .cseed => "CSEED"
  | .cbit => "CBIT"
  | .cbyte => "CBYTE"
  | .cbuf => "CBUF"
  | .csum => "CSUM"
  | .seta => "SETA"
  | .setn => "SETN"
  | .bfill => "BFILL"
  | .bstb => "BSTB"
  | .bsent => "BSENT"
  | .seti => "SETI"
  | .setl => "SETL"
  | .trli => "TRLI"
  | .trlc => "TRLC"
  | .trln => "TRLN"
  | .frame => "FRAME"
  | .prof => "PROF"
  | .image => "IMAGE"

/-- The command with a given mnemonic. -/
def opNamed? (name : List Char) : Option Op := Op.all.find? (fun o => (Op.mnemonic o).toList == name)

/-- The written bases of R61. -/
inductive Base where
  /-- decimal, written as it is -/
  | ten
  /-- hexadecimal, written after `0x` -/
  | sixteen
deriving DecidableEq, Repr

/-- How many digits a base has. -/
def Base.size : Base → Nat
  | .ten => 10
  | .sixteen => 16

/-- The rows of digits a base is written in, each in the order of value; the letters may be capitals or small
(notes/assumptions/11.md). -/
def Base.digitRows : Base → List (List Char)
  | .ten => ["0123456789".toList]
  | .sixteen => ["0123456789ABCDEF".toList, "0123456789abcdef".toList]

/-- A digit's value: its place in the first row that holds it; none if no row of the base does. -/
def Base.value? (b : Base) (c : Char) : Option Nat := b.digitRows.findSome? (fun row => row.idxOf? c)

/-- The number that digits write after a leading part of value `n`; none if one of them is no digit of the base. -/
def Base.readDigits (b : Base) : Nat → List Char → Option Nat
  | n, [] => some n
  | n, c :: cs =>
    match b.value? c with
    | some v => b.readDigits (b.size * n + v) cs
    | none => none

/-- The base of a written number and its digits: what follows `0x` is hexadecimal, anything else decimal (R61). -/
def writtenDigits (cs : List Char) : Base × List Char :=
  if ['0', 'x'].isPrefixOf cs then (.sixteen, cs.drop 2) else (.ten, cs)

/-- A number "written in decimal or in hexadecimal with `0x`" (R61), of at least one digit. -/
def number? (cs : List Char) : Option Nat :=
  match writtenDigits cs with
  | (_, []) => none
  | (b, ds) => b.readDigits 0 ds

/-- The text before a comment: "`;` starts a comment that runs to the end of the line" (R61). -/
def stripComment (cs : List Char) : List Char := cs.takeWhile (· != ';')

/-- Split at a character. -/
def splitAt (sep : Char) (cs : List Char) : List (List Char) := cs.splitOn sep

/-- Drop spaces at both ends. -/
def trim (cs : List Char) : List Char := ((cs.dropWhile (· == ' ')).reverse.dropWhile (· == ' ')).reverse

/-- The operands of a line, separated by commas (R61, R62); none of them for an empty text. -/
def operands (cs : List Char) : Except AsmError (List Nat) :=
  if (trim cs).isEmpty then .ok []
  else (splitAt ',' cs).mapM fun t =>
    match number? (trim t) with
    | some n => .ok n
    | none => .error .badNumber

/-- An operand of `w` bits, or the range error of R61 and R62. -/
def fit (w n : Nat) : Except AsmError (BitVec w) :=
  if n < 2 ^ w then .ok (BitVec.ofNat w n) else .error .operandOutOfRange

/-- A pseudo-instruction by its mnemonic and operands (R62); none if the mnemonic is no pseudo-instruction's. -/
def pseudo? (name : String) (args : List Nat) : Option (Except AsmError Pseudo) :=
  match name, args with
  | "CHECKSUM", [a, n, seed] => some do return .checksum (← fit 16 a) (← fit 16 n) (← fit 16 seed)
  | "LOAD", a :: b :: bs => some do return .load (← fit 16 a) (← fit 8 b) (← bs.mapM (fit 8))
  | "BLOCK", [i, a, l] => some do return .block (← fit 16 i) (← fit 16 a) (← fit 16 l)
  | "BLOCKT", [i, a, l, t] => some do return .blockt (← fit 16 i) (← fit 16 a) (← fit 16 l) (← fit 16 t)
  | "BEGIN", [p] => some do return .begin (profileOfBit ((← fit 1 p).getLsbD 0))
  | "CHECKSUM", _ | "LOAD", _ | "BLOCK", _ | "BLOCKT", _ | "BEGIN", _ => some (.error .operandCount)
  | _, _ => none

/-- One line of text as instructions (R61): none for a blank line or a comment. -/
def assembleText (line : List Char) : Except AsmError (List Instr) :=
  let cs := trim (stripComment line)
  if cs.isEmpty then .ok []
  else do
    let name := cs.takeWhile (· != ' ')
    let args ← operands (cs.drop name.length)
    match opNamed? name with
    | some o =>
      match args with
      | [] => return [← assembleLine ⟨o, none⟩]
      | [n] => return [← assembleLine ⟨o, some n⟩]
      | _ => .error .operandCount
    | none =>
      match pseudo? (String.ofList name) args with
      | some r => return (← r).expand
      | none => .error .unknownMnemonic

/-- A program, line by line, as the words the host presents (R22, R61). -/
def assemble (lines : List String) : Except AsmError (List Cmd) := do
  let is ← lines.mapM (fun l => assembleText l.toList)
  return is.flatten.map encode

end Sys2Proof.Machine
end

