-- ==== Sys2Proof/Machine/HostPort.lean ====
section
/-! DEFINITION. What the host can do to the machine besides presenting words: read every register, every byte of BUF and OUT (spec/10_state.md R26), start a run or a recovery run (spec/44_system.md R133), and pull the reset input or cycle the power (spec/70_reset_and_hazards.md R167). -/

namespace Sys2Proof.Machine

/-- The width of a register in bits (R10). -/
def Reg.width : Reg → Nat
  | .crc | .addr | .cnt | .idx | .len | .trl => 16
  | .ten => 1
  | .prof => 2
  | .fault => 8
  | .finfo => 24

/-- The index of a register in the table of R10, the `i` of `x[i]` (R7). -/
def Reg.index : Reg → Nat
  | .crc => 0
  | .addr => 1
  | .cnt => 2
  | .idx => 3
  | .len => 4
  | .trl => 5
  | .ten => 6
  | .prof => 7
  | .fault => 8
  | .finfo => 9

/-- The host reads a register between two commands, without side effect (R26). -/
def hostReadReg (s : State) : (r : Reg) → BitVec r.width
  | .crc => s.crc
  | .addr => s.addr
  | .cnt => s.cnt
  | .idx => s.idx
  | .len => s.len
  | .trl => s.trl
  | .ten => BitVec.ofBool s.ten
  | .prof => s.prof
  | .fault => s.fault
  | .finfo => s.finfo

/-- The host reads a byte of BUF; there is none at or above BUF_SIZE (R26, R30). -/
def hostReadBuf (s : State) (a : Nat) : Option Byte := if addrInBuf a then some (readByte s a) else none

/-- The host reads the whole of OUT (R26). -/
def hostReadOut (s : State) : List (List Byte) := s.out

/-- A run begins: a new list with `pc = 0`, the rest as it is. From a reset state it is an ordinary run; from the end of a
faulted run it is a recovery run (R133). -/
def startRun (cmds : List Cmd) (s : State) : State := { s with cmds := cmds, pc := 0 }

/-- The hardware reset input (R167): the reset of R166. It comes from outside the command stream, so no step takes it. -/
def hardwareReset (s : State) : State := resetState s

/-- Power-on (R167): the reset, and OUT is empty too because nothing has been emitted yet; no list is presented (R168). -/
def powerOn (s : State) : State := { resetState s with out := [], pc := 0, cmds := [] }

end Sys2Proof.Machine
end

