-- ==== Sys2Proof/Safety.lean ====
section
/-! DEFINITION. What counts as the end of a run (spec/44_system.md R133, spec/60_exceptions.md R152) and the invariant of the machine (spec/10_state.md R28), in the terms the claims use. -/

namespace Sys2Proof

open Sys2Proof.Machine

/-- Run a sequence of instructions, one `exec` after the other, as the host's list would. -/
def execAll : List Instr → State → Result
  | [], s => .next s
  | i :: is, s =>
    match exec i s with
    | .next t => execAll is t
    | r => r

/-- The run has completed: every word of the list was executed and no fault was raised (R133 (a)). -/
abbrev Completed (s : State) : Prop := s.pc = s.cmds.length ∧ s.fault = 0x00#8

/-- The run has faulted: a failed, non-final state (R133 (b), R148). -/
abbrev Faulted (s : State) : Prop := s.fault ≠ 0x00#8

/-- The run has produced a FirmwareImage: it completed and its OUT is not empty (R133 (a), R152). DESIGN CHOICE
(notes/assumptions/12.md): OUT is taken whole, so frames that an earlier faulted run left in it count in a recovery run. The
spec leaves that open, and it is unsafe to take such frames for a valid image. -/
abbrev ProducedImage (s : State) : Prop := Completed s ∧ s.out ≠ []

/-- A byte list with the shape of a frame (R28, R54): `4 + l + t` bytes, `l` the number in bytes 2 and 3, `l <= 2048`,
`t` 0 or 2. -/
abbrev FrameShaped (f : List Byte) : Prop :=
  4 ≤ f.length ∧ f.length ≤ 4 + Config.maxBlock + 2 ∧
    (half (f.getD 2 0#8) (f.getD 3 0#8)).toNat ≤ Config.maxBlock ∧
    (f.length = 4 + (half (f.getD 2 0#8) (f.getD 3 0#8)).toNat ∨
      f.length = 4 + (half (f.getD 2 0#8) (f.getD 3 0#8)).toNat + 2)

/-- FAULT and FINFO agree (R140): no fault and no word, or the code of a fault with a word that can raise it. -/
abbrev FaultRecorded (s : State) : Prop :=
  (s.fault = 0x00#8 ∧ s.finfo = 0x000000#24) ∨
  (s.fault = 0x01#8 ∧ ∀ i, encode i ≠ s.finfo) ∨
  (s.fault = 0x02#8 ∧ s.finfo = encode .frame) ∨
  (s.fault = 0x03#8 ∧ (s.finfo = encode .cbuf ∨ s.finfo = encode .frame ∨ (∃ seed, s.finfo = encode (.csum seed)) ∨
    ∃ v, s.finfo = encode (.bstb v))) ∨
  (s.fault = 0x04#8 ∧ (s.finfo = encode .bfill ∨ s.finfo = encode .bsent ∨ s.finfo = encode .image))

/-- The invariant (R28 and the rules it gathers): BUF in canonical form, PROF not 0b01 (R18), FAULT one of its five codes
with the word that raised it (R19, R140), every frame of OUT a frame (R28), pc within the list (R22), and a halted machine
still at the word that faulted (R147). -/
structure Inv (s : State) : Prop where
  bufCanonical : Memory.wf s.buf
  profLegal : s.prof ≠ 0b01#2
  faultRecorded : FaultRecorded s
  framesShaped : ∀ f ∈ s.out, FrameShaped f
  pcInList : s.pc ≤ s.cmds.length
  faultAtPc : s.fault ≠ 0x00#8 → fetch s = some s.finfo

/-! ### The terms of the claims -/

/-- `BUF[a .. a+n-1]` (R7), each byte read alone. -/
def bytesAt (s : State) (a n : Nat) : List Byte := (List.range n).map (fun k => readByte s (a + k))

/-- The profile PROF selects, as the numbers of R4 and R18: image size `S`, block length `L`, blocks `N`. -/
abbrev ProfileSizes (prof : BitVec 2) (S L N : Nat) : Prop :=
  (prof = 0b10#2 ∧ S = 0x7000 ∧ L = 128 ∧ N = 224) ∨ (prof = 0b11#2 ∧ S = 0xF000 ∧ L = 256 ∧ N = 240)

/-- Form `N` (R56): only the immediate 0 is the command, every other one is illegal (R58). -/
abbrev EncodedWithoutOperand (op : Byte) (i : Instr) : Prop :=
  ∀ imm : Half, decode (packWord op imm) = if imm = 0#16 then .ok i else .error .mustBeZeroBitSet

/-- Form `I1` (R56): the operand is `imm[0]`, the bits above it must be zero. -/
abbrev EncodedWithBit (op : Byte) (i : Bool → Instr) : Prop :=
  ∀ imm : Half, decode (packWord op imm) = if imm.toNat ≤ 1 then .ok (i (imm.getLsbD 0)) else .error .mustBeZeroBitSet

/-- Form `I8` (R56): the operand is `imm[7:0]`, the bits above it must be zero. -/
abbrev EncodedWithByte (op : Byte) (i : Byte → Instr) : Prop :=
  ∀ imm : Half, decode (packWord op imm) = if imm.toNat ≤ 0xFF then .ok (i (imm.extractLsb' 0 8)) else .error .mustBeZeroBitSet

/-- Form `I16` (R56): every immediate is an operand. -/
abbrev EncodedWithHalf (op : Byte) (i : Half → Instr) : Prop := ∀ imm : Half, decode (packWord op imm) = .ok (i imm)

/-- The "written by" column of the table of R10, less "a faulting command". -/
def Reg.writers : Reg → List Op
  | .crc => [.cseed, .cbit, .cbyte, .cbuf, .csum, .image, .reset]
  | .addr => [.seta, .bstb, .image, .reset]
  | .cnt => [.setn, .image, .reset]
  | .idx => [.seti, .image, .reset]
  | .len => [.setl, .image, .reset]
  | .trl => [.trli, .trlc, .image, .reset]
  | .ten => [.trli, .trlc, .trln, .image, .reset]
  | .prof => [.prof, .reset]
  | .fault => [.reset]
  | .finfo => [.reset]

/-- A record of the record-based path, as a LOAD writes it (R62): an address and at least one data byte. -/
structure Record where
  address : Half
  first : Byte
  more : List Byte

/-- The record's data bytes. -/
def Record.bytes (r : Record) : List Byte := r.first :: r.more

/-- The LOAD of a record (R62). -/
def Record.load (r : Record) : List Instr := (Pseudo.load r.address r.first r.more).expand

/-- The byte a record puts at an address, if it covers it. -/
def Record.byteAt (r : Record) (x : Nat) : Option Byte :=
  if r.address.toNat ≤ x then r.bytes[x - r.address.toNat]? else none

/-- Byte `x` of the reconstructed image of size `S` (R96): 0x00 at the last two addresses, else what the last record
covering `x` put there, else 0xFF. -/
def reconstructedByte (S : Nat) (records : List Record) (x : Nat) : Byte :=
  if S ≤ x + 2 then 0x00#8 else records.foldl (fun acc r => (r.byteAt x).getD acc) 0xFF#8

/-- The custom-block path of R107 over payloads of at least one byte, each loaded at address `a`, counted from `n`. -/
def customPath (a : Half) : Nat → List (Byte × List Byte) → List Instr
  | _, [] => []
  | n, (b, bs) :: rest =>
    (Pseudo.load a b bs).expand ++ (Pseudo.block (BitVec.ofNat 16 n) a (BitVec.ofNat 16 (bs.length + 1))).expand
      ++ customPath a (n + 1) rest

/-- The frames of the same blocks, counted from `n`: index, length, payload, no trailer (R107). -/
def customFrames : Nat → List (Byte × List Byte) → List (List Byte)
  | _, [] => []
  | n, (b, bs) :: rest => (hdr (BitVec.ofNat 16 n) (BitVec.ofNat 16 (bs.length + 1)) ++ b :: bs) :: customFrames (n + 1) rest

end Sys2Proof
end

