-- ==== Sys2Proof/Certificates/Slice0/Obligations.lean ====
section
/-! DEFINITION. The statements for the provers, from the numbered rules of spec/. A state in a statement is any state, reachable or not. -/

open Sys2Proof Sys2Proof.Machine

/-! ### Encoding -/

/-- R59 with R56 and R57: no bit of an encoding is dropped. -/
def Obligations.DecodeInvertsEncode : Prop := ∀ i : Instr, decode (encode i) = .ok i

/-- R59: decoding depends on the word alone (it is a function of it), distinct legal words decode to distinct pairs, and
every (command, operand) pair has exactly one word. -/
def Obligations.EveryCommandHasExactlyOneWord : Prop :=
  (∀ w w' : Cmd, ∀ i : Instr, decode w = .ok i → decode w' = .ok i → w = w') ∧
  ∀ i : Instr, ∃ w : Cmd, decode w = .ok i ∧ ∀ w' : Cmd, decode w' = .ok i → w' = w

/-- R57: a word is a command exactly when `w & mask = match` for the command's row, and then its operand is read from `imm`. -/
def Obligations.WordsMatchTheOpcodeMap : Prop :=
  (∀ (w : Cmd) (o : Op), w &&& o.maskBits = o.matchBits ↔ ∃ i, decode w = .ok i ∧ i.op = o) ∧
  (∀ (w : Cmd) (i : Instr), decode w = .ok i → opField w = i.op.code ∧ i.operand = (immField w).toNat)

/-- R58: the two kinds of illegal word, the rule's examples, and what executing one does. -/
def Obligations.IllegalWordsAreRejected : Prop :=
  (∀ w : Cmd, decode w = .error .unassignedOpcode ↔ ∀ o : Op, opField w ≠ o.code) ∧
  (∀ w : Cmd, decode w = .error .mustBeZeroBitSet ↔ ∃ o : Op, opField w = o.code ∧ immField w &&& o.form.mustBeZero ≠ 0#16) ∧
  (∀ w ∈ [0x990000#24, 0x020000#24], decode w = .error .unassignedOpcode) ∧
  (∀ w ∈ [0x130001#24, 0x230100#24, 0x400002#24], decode w = .error .mustBeZeroBitSet) ∧
  (∀ w : Cmd, decode w = .ok .nop ↔ w = 0x000000#24) ∧
  (∀ (s : State) (w : Cmd), s.fault = 0x00#8 → fetch s = some w → (∀ i, decode w ≠ .ok i) →
    step s = .next { s with fault := 0x01#8, finfo := w })

/-- Words written out from R55 to R57 decode to their commands, one at least of each family. -/
def Obligations.SpecWordsDecode : Prop :=
  decode 0x000000#24 = .ok .nop ∧ decode 0x010000#24 = .ok .reset ∧ decode 0x14FFFF#24 = .ok (.csum 0xFFFF#16) ∧
  decode 0x110001#24 = .ok (.cbit true) ∧ decode 0x2300AB#24 = .ok (.bstb 0xAB#8) ∧
  decode 0x32A1B2#24 = .ok (.trli 0xA1B2#16) ∧ decode 0x400001#24 = .ok (.prof .p1) ∧ decode 0x410000#24 = .ok .image

/-- R61: a well-formed line assembles to the word `(op << 16) | operand`; a missing, excess or out-of-range operand is an
assembly error. -/
def Obligations.WrittenCommandsAssemble : Prop :=
  (∀ l : Line, l.wellFormed = true → ∃ i, assembleLine l = .ok i ∧ i.op = l.op ∧
    (encode i).toNat = l.op.code.toNat * 65536 + l.operand.getD 0) ∧
  (∀ l : Line, l.wellFormed = false → ∃ e, assembleLine l = .error e)

/-! ### The checksum functions -/

/-- R70: the bit step as the pseudocode computes it on numbers, and bit by bit. -/
def Obligations.BitStepBitByBit : Prop :=
  (∀ (c : Half) (b : Bool),
    (crcBit c b).toNat = ((c.toNat * 2) % 65536 ||| b.toNat) ^^^ (if 32768 ≤ c.toNat then 0x1021 else 0)) ∧
  (∀ (c : Half) (b : Bool),
    (crcBit c b).getLsbD 0 = Bool.xor b (c.getLsbD 15) ∧ (crcBit c b).getLsbD 5 = Bool.xor (c.getLsbD 4) (c.getLsbD 15) ∧
    (crcBit c b).getLsbD 12 = Bool.xor (c.getLsbD 11) (c.getLsbD 15) ∧
    ∀ i, 0 < i → i < 16 → i ≠ 5 → i ≠ 12 → (crcBit c b).getLsbD i = c.getLsbD (i - 1)) ∧
  crcBit 0xFFFF#16 false = 0xEFDF#16 ∧ crcBit 0xFFFF#16 true = 0xEFDE#16 ∧ crcBit 0x8000#16 true = 0x1020#16 ∧
  crcBit 0x7FFF#16 true = 0xFFFF#16 ∧ crcBit 0x0000#16 false = 0x0000#16

/-- R82 (d): linearity over XOR, for lists of equal length. -/
def Obligations.ChecksumIsLinear : Prop :=
  ∀ (a b : Half) (x y : List Byte), x.length = y.length →
    crcBuf a x ^^^ crcBuf b y = crcBuf (a ^^^ b) (List.zipWith (· ^^^ ·) x y)

/-- R82 (a), (b), (c), (e), (f), (g). -/
def Obligations.ChecksumLaws : Prop :=
  (∀ c : Half, crcBuf c [] = c) ∧
  (∀ (c : Half) (x y : List Byte), crcBuf c (x ++ y) = crcBuf (crcBuf c x) y) ∧
  (∀ (c : Half) (v : Byte), crcByte c v =
    crcBit (crcBit (crcBit (crcBit (crcBit (crcBit (crcBit (crcBit c (v.getLsbD 7)) (v.getLsbD 6)) (v.getLsbD 5))
      (v.getLsbD 4)) (v.getLsbD 3)) (v.getLsbD 2)) (v.getLsbD 1)) (v.getLsbD 0)) ∧
  (∀ v : Byte, (crcBuf 0#16 [v]).toNat = v.toNat) ∧
  (∀ v w : Byte, (crcBuf 0#16 [v, w]).toNat = v.toNat * 256 + w.toNat) ∧
  (∀ (n : Nat) (x : List Byte), crcBuf 0#16 (List.replicate n 0#8 ++ x) = crcBuf 0#16 x) ∧
  crcBuf 0xFFFF#16 [0x00#8, 0x00#8] = 0x1D0F#16

/-- R75 (c) and the general identity of 95_test_vectors.md 2.4: over a buffer that ends in two zero bytes the machine's
checksum is the catalogue algorithm over the buffer without them. The catalogue algorithm is the spec's, PRESUMED from
general knowledge (notes/assumptions/1.md); the machine does not use it. -/
def Obligations.ChecksumWithTwoZeroBytesIsCcitt : Prop :=
  (∀ (c : Half) (m : List Byte), crcBuf c (m ++ [0x00#8, 0x00#8]) = ccittBuf (crcBuf c [0x00#8, 0x00#8]) m) ∧
  (∀ m : List Byte, crcBuf 0xFFFF#16 (m ++ [0x00#8, 0x00#8]) = ccittBuf 0x1D0F#16 m)

/-- R75 (a), (b): the values that tell the steps of R70 from the catalogue algorithm (PRESUMED, notes/assumptions/1.md). -/
def Obligations.DiscriminatingChecksumValues : Prop :=
  crcBuf 0xFFFF#16 [0x31#8, 0x32#8, 0x33#8, 0x34#8] = 0x9741#16 ∧
  ccittBuf 0xFFFF#16 [0x31#8, 0x32#8, 0x33#8, 0x34#8] = 0x5349#16 ∧
  crcBuf 0xFFFF#16 [0x31#8, 0x32#8, 0x33#8, 0x34#8, 0x35#8, 0x36#8, 0x37#8, 0x38#8, 0x39#8] = 0xA69D#16 ∧
  ccittBuf 0xFFFF#16 [0x31#8, 0x32#8, 0x33#8, 0x34#8, 0x35#8, 0x36#8, 0x37#8, 0x38#8, 0x39#8] = 0x29B1#16 ∧
  crcBuf 0xFFFF#16 [0x00#8, 0x00#8, 0x00#8, 0x00#8] = 0x84C0#16

/-! ### Frames -/

/-- R50, R51, R52: the frame byte by byte, and its length. -/
def Obligations.FrameLayoutByOffset : Prop :=
  (∀ i l : Half, (hdr i l).map BitVec.toNat = [i.toNat / 256, i.toNat % 256, l.toNat / 256, l.toNat % 256]) ∧
  (∀ t : Half, (trl t).map BitVec.toNat = [t.toNat % 256, t.toNat / 256]) ∧
  (∀ (i l : Half) (pay : List Byte) (t : Option Half), pay.length = l.toNat →
    let f := frameBytes i l pay t
    f.length = 4 + l.toNat + (if t.isSome then 2 else 0) ∧
    (f.take 4).map BitVec.toNat = [i.toNat / 256, i.toNat % 256, l.toNat / 256, l.toNat % 256] ∧
    (f.drop 4).take l.toNat = pay ∧
    (f.drop (4 + l.toNat)).map BitVec.toNat = (match t with | some v => [v.toNat % 256, v.toNat / 256] | none => []))

/-- R53: reading a frame back gives its index, length, payload and trailer. -/
def Obligations.ReadFrameInvertsFrame : Prop :=
  ∀ (i l : Half) (pay : List Byte) (t : Option Half), pay.length = l.toNat →
    let f := frameBytes i l pay t
    readFrame f = some ⟨i, l, pay, t⟩ ∧
    (f.getD 0 0#8).toNat * 256 + (f.getD 1 0#8).toNat = i.toNat ∧
    (f.getD 2 0#8).toNat * 256 + (f.getD 3 0#8).toNat = l.toNat ∧
    (t.isSome = true ↔ f.length = 4 + l.toNat + 2) ∧
    (∀ v, t = some v → (f.getD (4 + l.toNat) 0#8).toNat + 256 * (f.getD (4 + l.toNat + 1) 0#8).toNat = v.toNat)

/-! ### The system commands -/

/-- R130. -/
def Obligations.NopOnlyAdvancesPc : Prop :=
  EncodedWithoutOperand 0x00#8 .nop ∧ ∀ s : State, s.fault = 0x00#8 → exec .nop s = .next { s with pc := s.pc + 1 }

/-- R131 and R166: RESET from any state, running or halted, and the word 0x010001. That BUF is unspecified afterwards is
said through the free value of notes/assumptions/3.md: a byte reads as a value nothing constrains. -/
def Obligations.ResetReturnsToTheResetState : Prop :=
  EncodedWithoutOperand 0x01#8 .reset ∧
  (∀ s : State, ∃ m,
    exec .reset s = .next { s with
      crc := 0xFFFF#16, addr := 0#16, cnt := 0#16, idx := 0#16, len := 0#16, trl := 0#16, ten := false, prof := 0b00#2,
      fault := 0x00#8, finfo := 0x000000#24, buf := m, bufEpoch := s.bufEpoch + 1, pc := s.pc + 1 } ∧
    ∀ a, readByte { s with buf := m, bufEpoch := s.bufEpoch + 1 } a = Config.unspecifiedByte (s.bufEpoch + 1) a) ∧
  (∀ s : State, fetch s = some 0x010001#24 →
    step s = .next (if s.fault = 0x00#8 then { s with fault := 0x01#8, finfo := 0x010001#24 } else s))

/-! ### The checksum commands -/

/-- R76, R90, R91, R101, R102: the commands that load one register from the word, for every operand. -/
def Obligations.RegisterLoads : Prop :=
  EncodedWithHalf 0x10#8 .cseed ∧ EncodedWithHalf 0x20#8 .seta ∧ EncodedWithHalf 0x21#8 .setn ∧
  EncodedWithHalf 0x30#8 .seti ∧ EncodedWithHalf 0x31#8 .setl ∧
  ∀ (v : Half) (s : State), s.fault = 0x00#8 →
    exec (.cseed v) s = .next { s with crc := v, pc := s.pc + 1 } ∧
    exec (.seta v) s = .next { s with addr := v, pc := s.pc + 1 } ∧
    exec (.setn v) s = .next { s with cnt := v, pc := s.pc + 1 } ∧
    exec (.seti v) s = .next { s with idx := v, pc := s.pc + 1 } ∧
    exec (.setl v) s = .next { s with len := v, pc := s.pc + 1 }

/-- R77. -/
def Obligations.CbitIsOneBitStep : Prop :=
  EncodedWithBit 0x11#8 .cbit ∧
  ∀ (b : Bool) (s : State), s.fault = 0x00#8 → exec (.cbit b) s = .next { s with crc := crcBit s.crc b, pc := s.pc + 1 }

/-- R78: one byte step, equal to eight CBIT commands, bit 7 first. -/
def Obligations.CbyteIsEightBitSteps : Prop :=
  EncodedWithByte 0x12#8 .cbyte ∧
  ∀ (v : Byte) (s : State), s.fault = 0x00#8 →
    exec (.cbyte v) s = .next { s with crc := crcByte s.crc v, pc := s.pc + 1 } ∧
    execAll ([7, 6, 5, 4, 3, 2, 1, 0].map (fun k => Instr.cbit (v.getLsbD k))) s =
      .next { s with crc := crcByte s.crc v, pc := s.pc + 8 }

/-- R79: CBUF over the range, its BOUNDS fault, and two adjacent ranges in a row. -/
def Obligations.CbufContinuesTheChecksum : Prop :=
  EncodedWithoutOperand 0x13#8 .cbuf ∧
  (∀ s : State, s.fault = 0x00#8 → s.addr.toNat + s.cnt.toNat ≤ 0xF000 →
    exec .cbuf s = .next { s with crc := crcBuf s.crc (bytesAt s s.addr.toNat s.cnt.toNat), pc := s.pc + 1 }) ∧
  (∀ s : State, s.fault = 0x00#8 → 0xF000 < s.addr.toNat + s.cnt.toNat →
    exec .cbuf s = .next { s with fault := 0x03#8, finfo := 0x130000#24 }) ∧
  (∀ (s : State) (a m n : Half), s.fault = 0x00#8 → a.toNat + m.toNat + n.toNat ≤ 0xF000 →
    execAll [.seta a, .setn m, .cbuf, .seta (a + m), .setn n, .cbuf] s =
      .next { s with
        addr := a + m, cnt := n, crc := crcBuf s.crc (bytesAt s a.toNat (m.toNat + n.toNat)), pc := s.pc + 6 })

/-- R80: CSUM over the range, its BOUNDS fault with CRC kept, and its equality with CSEED followed by CBUF. -/
def Obligations.CsumChecksumsFromTheSeed : Prop :=
  EncodedWithHalf 0x14#8 .csum ∧
  (∀ (seed : Half) (s : State), s.fault = 0x00#8 → s.addr.toNat + s.cnt.toNat ≤ 0xF000 →
    exec (.csum seed) s = .next { s with crc := crcBuf seed (bytesAt s s.addr.toNat s.cnt.toNat), pc := s.pc + 1 } ∧
    execAll [.cseed seed, .cbuf] s =
      .next { s with crc := crcBuf seed (bytesAt s s.addr.toNat s.cnt.toNat), pc := s.pc + 2 }) ∧
  (∀ (seed : Half) (s : State), s.fault = 0x00#8 → 0xF000 < s.addr.toNat + s.cnt.toNat →
    exec (.csum seed) s = .next { s with fault := 0x03#8, finfo := packWord 0x14#8 seed })

/-! ### The buffer commands -/

/-- R92: the image bytes become 0xFF, every other byte and every register stays. -/
def Obligations.BfillErasesTheImage : Prop :=
  EncodedWithoutOperand 0x22#8 .bfill ∧
  (∀ (s : State) (S L N : Nat), s.fault = 0x00#8 → ProfileSizes s.prof S L N →
    ∃ m, exec .bfill s = .next { s with buf := m, pc := s.pc + 1 } ∧
      ∀ a, readByte { s with buf := m } a = if a < S then 0xFF#8 else readByte s a) ∧
  (∀ s : State, s.fault = 0x00#8 → s.prof.getLsbD 1 = false →
    exec .bfill s = .next { s with fault := 0x04#8, finfo := 0x220000#24 })

/-- R93: the byte at ADDR is written and no other, ADDR steps by one without wrapping, or BOUNDS. -/
def Obligations.BstbStoresAndStepsTheAddress : Prop :=
  EncodedWithByte 0x23#8 .bstb ∧
  (∀ (v : Byte) (s : State), s.fault = 0x00#8 → s.addr.toNat < 0xF000 →
    (s.addr + 1#16).toNat = s.addr.toNat + 1 ∧
    ∃ m, exec (.bstb v) s = .next { s with buf := m, addr := s.addr + 1#16, pc := s.pc + 1 } ∧
      ∀ a, readByte { s with buf := m } a = if a = s.addr.toNat then v else readByte s a) ∧
  (∀ (v : Byte) (s : State), s.fault = 0x00#8 → 0xF000 ≤ s.addr.toNat →
    exec (.bstb v) s = .next { s with fault := 0x03#8, finfo := packWord 0x23#8 (v.setWidth 16) })

/-- R94: the last two image bytes become 0x00, nothing else changes, a second BSENT changes nothing. -/
def Obligations.BsentForcesTheSentinelBytes : Prop :=
  EncodedWithoutOperand 0x24#8 .bsent ∧
  (∀ (s : State) (S L N : Nat), s.fault = 0x00#8 → ProfileSizes s.prof S L N →
    ∃ m, exec .bsent s = .next { s with buf := m, pc := s.pc + 1 } ∧
      (∀ a, readByte { s with buf := m } a = if a + 2 = S ∨ a + 1 = S then 0x00#8 else readByte s a) ∧
      execAll [.bsent, .bsent] s = .next { s with buf := m, pc := s.pc + 2 }) ∧
  (∀ s : State, s.fault = 0x00#8 → s.prof.getLsbD 1 = false →
    exec .bsent s = .next { s with fault := 0x04#8, finfo := 0x240000#24 })

/-- R96: after `PROF p`, BFILL, any LOADs inside the image and BSENT, every image byte is what the records say, over a
background of 0xFF, with the last two bytes 0x00. -/
def Obligations.ImageIsReconstructedFromItsRecords : Prop :=
  ∀ (s : State) (p : Profile) (records : List Record), s.fault = 0x00#8 →
    (∀ r ∈ records, r.address.toNat + r.bytes.length ≤ Config.imgSize p) →
    ∃ t, execAll ([.prof p, .bfill] ++ records.flatMap Record.load ++ [.bsent]) s = .next t ∧ t.fault = 0x00#8 ∧
      ∀ x, x < Config.imgSize p → readByte t x = reconstructedByte (Config.imgSize p) records x

/-! ### The frame composer -/

/-- R103, R104, R105. -/
def Obligations.TrailerCommands : Prop :=
  EncodedWithHalf 0x32#8 .trli ∧ EncodedWithoutOperand 0x33#8 .trlc ∧ EncodedWithoutOperand 0x34#8 .trln ∧
  ∀ s : State, s.fault = 0x00#8 →
    (∀ t : Half, exec (.trli t) s = .next { s with trl := t, ten := true, pc := s.pc + 1 }) ∧
    exec .trlc s = .next { s with trl := s.crc, ten := true, pc := s.pc + 1 } ∧
    exec .trln s = .next { s with ten := false, pc := s.pc + 1 }

/-- R106: the frame of the Block in the registers, LENGTH before BOUNDS, no register changed; twice emits it twice. -/
def Obligations.FrameEmitsTheBlockInTheRegisters : Prop :=
  EncodedWithoutOperand 0x35#8 .frame ∧
  (∀ s : State, s.fault = 0x00#8 → s.len.toNat ≤ 2048 → s.addr.toNat + s.len.toNat ≤ 0xF000 →
    let f := hdr s.idx s.len ++ bytesAt s s.addr.toNat s.len.toNat ++ (if s.ten then trl s.trl else [])
    exec .frame s = .next { s with out := s.out ++ [f], pc := s.pc + 1 } ∧
    f.length = 4 + s.len.toNat + (if s.ten then 2 else 0) ∧
    execAll [.frame, .frame] s = .next { s with out := s.out ++ [f, f], pc := s.pc + 2 }) ∧
  (∀ s : State, s.fault = 0x00#8 → 2048 < s.len.toNat →
    exec .frame s = .next { s with fault := 0x02#8, finfo := 0x350000#24 }) ∧
  (∀ s : State, s.fault = 0x00#8 → s.len.toNat ≤ 2048 → 0xF000 < s.addr.toNat + s.len.toNat →
    exec .frame s = .next { s with fault := 0x03#8, finfo := 0x350000#24 })

/-- R107: the custom-block path composes its blocks in order, index counted by the host, no trailer. -/
def Obligations.CustomPathEmitsItsBlocksInOrder : Prop :=
  ∀ (s : State) (a : Half) (blocks : List (Byte × List Byte)), s.fault = 0x00#8 → a.toNat + 2048 ≤ 0xF000 →
    blocks.length ≤ 65536 → (∀ b ∈ blocks, b.2.length + 1 ≤ 2048) →
    ∃ t, execAll (customPath a 0 blocks) s = .next t ∧ t.fault = 0x00#8 ∧ t.out = s.out ++ customFrames 0 blocks

/-- R62: what each pseudo-instruction's expansion does where it raises no fault. -/
def Obligations.PseudoInstructionsDoWhatTheyStandFor : Prop :=
  (∀ (s : State) (a n seed : Half), s.fault = 0x00#8 → a.toNat + n.toNat ≤ 0xF000 →
    execAll (Pseudo.checksum a n seed).expand s =
      .next { s with addr := a, cnt := n, crc := crcBuf seed (bytesAt s a.toNat n.toNat), pc := s.pc + 3 }) ∧
  (∀ (s : State) (a : Half) (b : Byte) (bs : List Byte), s.fault = 0x00#8 → a.toNat + bs.length + 1 ≤ 0xF000 →
    ∃ m, execAll (Pseudo.load a b bs).expand s =
        .next { s with buf := m, addr := a + BitVec.ofNat 16 (bs.length + 1), pc := s.pc + (bs.length + 2) } ∧
      ∀ x, readByte { s with buf := m } x =
        if a.toNat ≤ x ∧ x < a.toNat + bs.length + 1 then (b :: bs).getD (x - a.toNat) 0#8 else readByte s x) ∧
  (∀ (s : State) (i a l : Half), s.fault = 0x00#8 → l.toNat ≤ 2048 → a.toNat + l.toNat ≤ 0xF000 →
    execAll (Pseudo.block i a l).expand s =
      .next { s with
        idx := i, addr := a, len := l, ten := false, out := s.out ++ [hdr i l ++ bytesAt s a.toNat l.toNat],
        pc := s.pc + 5 }) ∧
  (∀ (s : State) (i a l t : Half), s.fault = 0x00#8 → l.toNat ≤ 2048 → a.toNat + l.toNat ≤ 0xF000 →
    execAll (Pseudo.blockt i a l t).expand s =
      .next { s with
        idx := i, addr := a, len := l, trl := t, ten := true,
        out := s.out ++ [hdr i l ++ bytesAt s a.toNat l.toNat ++ trl t], pc := s.pc + 5 }) ∧
  (∀ (s : State) (p : Profile), s.fault = 0x00#8 →
    ∃ m, execAll (Pseudo.begin p).expand s =
        .next { s with prof := if p = .p0 then 0b10#2 else 0b11#2, buf := m, pc := s.pc + 2 } ∧
      ∀ x, readByte { s with buf := m } x = if x < Config.imgSize p then 0xFF#8 else readByte s x)

/-! ### Profile and image -/

/-- R117: PROF changes only PROF, and no command but RESET returns to no profile. -/
def Obligations.ProfSelectsTheProfile : Prop :=
  EncodedWithBit 0x40#8 (fun b => .prof (if b then .p1 else .p0)) ∧
  (∀ (p : Profile) (s : State), s.fault = 0x00#8 →
    exec (.prof p) s = .next { s with prof := if p = .p0 then 0b10#2 else 0b11#2, pc := s.pc + 1 }) ∧
  (∀ (i : Instr) (s t : State), exec i s = .next t → s.prof.getLsbD 1 = true → t.prof.getLsbD 1 = false → i = .reset)

/-- R118: the sentinel bytes, the checksum over the whole image, the frames, or PROFILE with nothing written. -/
def Obligations.ImageFinalisesTheImage : Prop :=
  EncodedWithoutOperand 0x41#8 .image ∧
  (∀ (s : State) (S L N : Nat), s.fault = 0x00#8 → ProfileSizes s.prof S L N →
    ∃ m,
      let u : State := { s with buf := m }
      let C := crcBuf 0xFFFF#16 (bytesAt u 0 S)
      exec .image s = .next { s with
        buf := m, crc := C, addr := BitVec.ofNat 16 ((N - 1) * L), cnt := BitVec.ofNat 16 S,
        idx := BitVec.ofNat 16 (N - 1), len := BitVec.ofNat 16 L, trl := C, ten := true,
        out := s.out ++ (List.range N).map (fun k =>
          hdr (BitVec.ofNat 16 k) (BitVec.ofNat 16 L) ++ bytesAt u (k * L) L ++ (if k + 1 = N then trl C else [])),
        pc := s.pc + 1 } ∧
      ∀ a, readByte u a = if a + 2 = S ∨ a + 1 = S then 0x00#8 else readByte s a) ∧
  (∀ s : State, s.fault = 0x00#8 → s.prof.getLsbD 1 = false →
    exec .image s = .next { s with fault := 0x04#8, finfo := 0x410000#24 })

/-- R121: the registers a completed IMAGE leaves, and that a FRAME right after it emits the last frame again. -/
def Obligations.ImageLeavesTheRegistersOfItsExpansion : Prop :=
  ∀ s t : State, s.fault = 0x00#8 → s.prof.getLsbD 1 = true → exec .image s = .next t →
    t.trl = t.crc ∧ t.crc = crcBuf 0xFFFF#16 (bytesAt t 0 t.cnt.toNat) ∧ t.ten = true ∧
    t.prof = s.prof ∧ t.fault = s.fault ∧ t.finfo = s.finfo ∧
    (s.prof = 0b10#2 → t.idx = 0x00DF#16 ∧ t.len = 0x0080#16 ∧ t.addr = 0x6F80#16 ∧ t.cnt = 0x7000#16) ∧
    (s.prof = 0b11#2 → t.idx = 0x00EF#16 ∧ t.len = 0x0100#16 ∧ t.addr = 0xEF00#16 ∧ t.cnt = 0xF000#16) ∧
    ∃ f, t.out.getLast? = some f ∧ exec .frame t = .next { t with out := t.out ++ [f], pc := t.pc + 1 }

/-- R119 and R120: one frame per block in ascending index, the payloads give the image back, the trailer on the last alone
is the checksum of the whole image, the sentinel bytes staying in the payload before it. -/
def Obligations.ImageFramesAreTheBlocksOfTheImage : Prop :=
  ∀ (s : State) (S L N : Nat), s.fault = 0x00#8 → ProfileSizes s.prof S L N →
    ∃ (t : State) (fs : List (List Byte)), exec .image s = .next t ∧ t.out = s.out ++ fs ∧ fs.length = N ∧
      (∀ k, k < N → ∃ f, fs[k]? = some f ∧
        readFrame f = some ⟨BitVec.ofNat 16 k, BitVec.ofNat 16 L, bytesAt t (k * L) L,
          if k + 1 = N then some (crcBuf 0xFFFF#16 (bytesAt t 0 S)) else none⟩ ∧
        f.length = 4 + L + (if k + 1 = N then 2 else 0)) ∧
      (fs.map List.length).sum = N * (4 + L) + 2 ∧
      fs.flatMap (fun f => (f.drop 4).take L) = bytesAt t 0 S ∧
      (bytesAt t ((N - 1) * L) L).drop (L - 2) = [0x00#8, 0x00#8]

/-- R122: IMAGE has exactly the effect of its expansion on every register, BUF and OUT, in one pc step. -/
def Obligations.ImageEqualsItsExpansion : Prop :=
  ∀ (s : State) (p : Profile), s.fault = 0x00#8 → selectedProfile s.prof = some p →
    ∃ t, execAll (imageExpansion p) s = .next t ∧ exec .image s = .next { t with pc := s.pc + 1 }

/-- R123: IMAGE writes only the two sentinel bytes, and a second IMAGE emits the same frames again. -/
def Obligations.ImageAgainEmitsTheSameFrames : Prop :=
  ∀ (s : State) (S L N : Nat), s.fault = 0x00#8 → ProfileSizes s.prof S L N →
    ∃ (t : State) (fs : List (List Byte)), exec .image s = .next t ∧ t.out = s.out ++ fs ∧ fs.length = N ∧
      (∀ a, readByte t a = if a + 2 = S ∨ a + 1 = S then 0x00#8 else readByte s a) ∧
      exec .image t = .next { t with out := t.out ++ fs, pc := t.pc + 1 }

/-- R31 with R118: what IMAGE computes and emits depends on the image bytes below the sentinel bytes alone. -/
def Obligations.ImageDependsOnlyOnTheImage : Prop :=
  ∀ (s t s' t' : State) (S L N : Nat), s.fault = 0x00#8 → s'.fault = 0x00#8 → s'.prof = s.prof → ProfileSizes s.prof S L N →
    (∀ a, a + 2 < S → readByte s' a = readByte s a) → exec .image s = .next t → exec .image s' = .next t' →
    t'.crc = t.crc ∧ t'.out.drop s'.out.length = t.out.drop s.out.length

/-! ### Faults and the halted state -/

/-- R147: a step that enters a fault changes FAULT and FINFO and nothing else, FINFO being the word at pc. -/
def Obligations.FaultEntryChangesOnlyFaultAndFinfo : Prop :=
  ∀ s t : State, step s = .next t → s.fault = 0x00#8 → t.fault ≠ 0x00#8 →
    ∃ w, fetch s = some w ∧ t = { s with fault := t.fault, finfo := w } ∧ t.fault.toNat ≤ 4

/-- R146: which command raises which fault, and when, exactly; the ILLEGAL column by operand form. -/
def Obligations.WhichCommandRaisesWhichFault : Prop :=
  (∀ (i : Instr) (s t : State), s.fault = 0x00#8 → exec i s = .next t →
    (t.fault = 0x02#8 ↔ i = .frame ∧ 2048 < s.len.toNat) ∧
    (t.fault = 0x03#8 ↔
      ((∃ v, i = .bstb v) ∧ 0xF000 ≤ s.addr.toNat) ∨
      ((i = .cbuf ∨ ∃ seed, i = .csum seed) ∧ 0xF000 < s.addr.toNat + s.cnt.toNat) ∨
      (i = .frame ∧ s.len.toNat ≤ 2048 ∧ 0xF000 < s.addr.toNat + s.len.toNat)) ∧
    (t.fault = 0x04#8 ↔ (i = .bfill ∨ i = .bsent ∨ i = .image) ∧ s.prof.getLsbD 1 = false) ∧
    (t.fault = 0x00#8 ∨ t.fault = 0x02#8 ∨ t.fault = 0x03#8 ∨ t.fault = 0x04#8)) ∧
  (∀ (o : Op) (imm : Half), (∃ e, decode (packWord o.code imm) = .error e) ↔
    (match o.form with
      | .n => imm ≠ 0#16
      | .i1 => 1 < imm.toNat
      | .i8 => 0xFF < imm.toNat
      | .i16 => False))

/-- R141: every word either decodes, and the step is that command's, or raises ILLEGAL before any register is read. -/
def Obligations.WordDecodesOrRaisesIllegal : Prop :=
  ∀ (s : State) (w : Cmd), s.fault = 0x00#8 → fetch s = some w →
    (∃ i, decode w = .ok i ∧ step s = exec i s) ∨
    ((∀ i, decode w ≠ .ok i) ∧ step s = .next { s with fault := 0x01#8, finfo := w })

/-- R148: while FAULT is not 0 only the exact word 0x010000 is taken; no instruction but RESET does anything. -/
def Obligations.HaltedMachineTakesOnlyTheResetWord : Prop :=
  (∀ (s : State) (w : Cmd), s.fault ≠ 0x00#8 → fetch s = some w → w ≠ 0x010000#24 → step s = .next s) ∧
  (∀ s : State, s.fault ≠ 0x00#8 → fetch s = some 0x010000#24 →
    ∃ t, step s = .next t ∧ t.fault = 0x00#8 ∧ t.finfo = 0x000000#24 ∧ t.pc = s.pc + 1 ∧ t.out = s.out) ∧
  (∀ (s : State) (i : Instr), s.fault ≠ 0x00#8 → i ≠ .reset → exec i s = .next s)

/-- R149 with R133: a fault is final for its run. However many steps follow, the state, and with it the first fault's FAULT
and FINFO, stays. -/
def Obligations.FaultIsFinalForItsRun : Prop :=
  ∀ (s : State) (n : Nat), s.fault ≠ 0x00#8 → fetch s ≠ some 0x010000#24 → core.run n s = .next s

/-- R133: a recovery run goes on exactly when its first word is RESET; OUT is kept. -/
def Obligations.RecoveryRunBeginsWithReset : Prop :=
  ∀ (s : State) (w : Cmd) (ws : List Cmd), s.fault ≠ 0x00#8 →
    (w = 0x010000#24 → ∃ t, step (startRun (w :: ws) s) = .next t ∧ t.fault = 0x00#8 ∧ t.pc = 1 ∧ t.out = s.out ∧
      t.cmds = w :: ws) ∧
    (w ≠ 0x010000#24 → ∀ n, core.run n (startRun (w :: ws) s) = .next (startRun (w :: ws) s))

/-! ### The step -/

/-- A step runs the decoded instruction: nothing is added around exec (R132). -/
def Obligations.StepRunsTheDecodedInstruction : Prop :=
  ∀ (s : State) (w : Cmd) (i : Instr), fetch s = some w → decode w = .ok i → step s = exec i s

/-- R132: the common execution rule, branch by branch, for the word at index pc. What the reset does is
ResetReturnsToTheResetState. -/
def Obligations.StepFollowsTheExecutionRule : Prop :=
  ∀ (s : State) (w : Cmd), fetch s = some w → ∃ t, step s = .next t ∧
    (s.fault ≠ 0x00#8 → w = 0x010000#24 → exec .reset s = .next t ∧ t.fault = 0x00#8 ∧ t.pc = s.pc + 1) ∧
    (s.fault ≠ 0x00#8 → w ≠ 0x010000#24 → t = s) ∧
    (s.fault = 0x00#8 → (∀ i, decode w ≠ .ok i) → t = { s with fault := 0x01#8, finfo := w }) ∧
    (s.fault = 0x00#8 → ∀ i, decode w = .ok i → exec i s = .next t ∧
      (t.fault ≠ 0x00#8 → t = { s with fault := t.fault, finfo := w }) ∧ (t.fault = 0x00#8 → t.pc = s.pc + 1))

/-- The model's convention (notes/assumptions/6.md): with no word presented the machine is idle and keeps all state (R160). -/
def Obligations.NoWordNoChange : Prop := ∀ s : State, s.cmds.length ≤ s.pc → step s = .next s

/-- Every instruction and every step answers a next state, in every state. R132 gives every word in every state "exactly one
outcome"; that a fault is a next state and no stop of the model is the model's choice (notes/assumptions/8.md), and so is what
a step answers when no word is presented (notes/assumptions/6.md). -/
def Obligations.EveryStepAnswersANextState : Prop :=
  (∀ (i : Instr) (s : State), ∃ t, exec i s = .next t) ∧ ∀ s : State, ∃ t, step s = .next t

/-- The model's convention (notes/assumptions/5.md): the word the host places is the next one to run. -/
def Obligations.PlacedWordRunsNext : Prop :=
  ∀ (s : State) (i : Instr),
    step (s.withFetchWord 24 (encode i).toNat) = exec i (s.withFetchWord 24 (encode i).toNat)

/-! ### Invariants and whole-machine rules -/

/-- R28 and the rules Inv gathers: every step keeps the invariant. -/
def Obligations.StepKeepsInv : Prop := ∀ s t : State, Inv s → step s = .next t → Inv t

/-- The machine after reset meets the invariant. -/
def Obligations.ResetMeetsInv : Prop := Inv State.reset

/-- R20 and R30 (b): OUT only grows at its end, and no command's effect depends on what is in it. -/
def Obligations.OutOnlyGrowsAndIsNeverRead : Prop :=
  ∀ (i : Instr) (s t : State), exec i s = .next t →
    ∃ fs, t.out = s.out ++ fs ∧ ∀ o, exec i { s with out := o } = .next { t with out := o ++ fs }

/-- R10, the "written by" column: a register, BUF or OUT changes only by the commands the table names, or FAULT and FINFO by
a faulting command. -/
def Obligations.StateChangesOnlyByItsWriters : Prop :=
  ∀ (i : Instr) (s t : State), exec i s = .next t →
    (∀ r : Reg, hostReadReg t r ≠ hostReadReg s r →
      (t.fault = 0x00#8 ∧ i.op ∈ Reg.writers r) ∨
      (s.fault = 0x00#8 ∧ t.fault ≠ 0x00#8 ∧ (r = .fault ∨ r = .finfo))) ∧
    ((∃ a, readByte t a ≠ readByte s a) → i.op ∈ [.bfill, .bstb, .bsent, .image, .reset]) ∧
    (t.out ≠ s.out → i.op ∈ [.frame, .image])

/-- R22: a command that completes does `pc <- pc + 1`; one that faults, or is not taken, leaves pc at its own index. -/
def Obligations.PcAdvancesExactlyOnCompletion : Prop :=
  ∀ (i : Instr) (s t : State), exec i s = .next t →
    (t.fault = 0x00#8 → t.pc = s.pc + 1) ∧ (t.fault ≠ 0x00#8 → t.pc = s.pc)

/-- R44 and R22: no step changes the host's command list, so no store can change a later command. -/
def Obligations.CommandListNeverChanges : Prop := ∀ s t : State, step s = .next t → t.cmds = s.cmds

/-- R18 and R144: the other commands never read PROF. -/
def Obligations.OnlyImageCommandsReadProf : Prop :=
  ∀ (i : Instr) (s t : State) (q : BitVec 2), i.op ∉ [.bfill, .bsent, .image, .prof, .reset] →
    exec i s = .next t → exec i { s with prof := q } = .next { t with prof := q }

/-- R16: TRL is read by FRAME only when `TEN = 1`. -/
def Obligations.TrailerValueIsNotReadWithoutTen : Prop :=
  ∀ (s t : State) (v : Half), s.ten = false → exec .frame s = .next t →
    exec .frame { s with trl := v } = .next { t with trl := v }

/-! ### Reset -/

/-- R29: the values at power-on. The clause about BUF says the rule's "unspecified" through the model's free value
(notes/assumptions/3.md), a constant nothing constrains. -/
def Obligations.ResetValues : Prop :=
  State.reset.crc = 0xFFFF#16 ∧ State.reset.addr = 0#16 ∧ State.reset.cnt = 0#16 ∧ State.reset.idx = 0#16 ∧
  State.reset.len = 0#16 ∧ State.reset.trl = 0#16 ∧ State.reset.ten = false ∧ State.reset.prof = 0b00#2 ∧
  State.reset.fault = 0x00#8 ∧ State.reset.finfo = 0x000000#24 ∧ State.reset.out = [] ∧
  ∀ a, readByte State.reset a = Config.unspecifiedByte State.reset.bufEpoch a

/-- R167: power-on, the reset input and the RESET command are one reset, but that at power-on OUT is empty. The model's own
choice is what R167 says nothing of: that the reset input and power-on are operations beside the step
(notes/assumptions/9.md), that power-on empties the host's list `cmds` and sets pc to 0 while the reset input leaves both
(notes/assumptions/5.md), and that each reset begins an epoch of BUF's free value (notes/assumptions/3.md). -/
def Obligations.TheThreeResetsAgree : Prop :=
  (∀ s : State, exec .reset s = .next { hardwareReset s with pc := s.pc + 1 }) ∧
  (∀ s : State, powerOn s = { hardwareReset s with out := [], pc := 0, cmds := [] }) ∧
  (∀ s : State, powerOn s = { State.reset with bufEpoch := s.bufEpoch + 1 }) ∧
  (∀ s : State, (hardwareReset s).out = s.out)
end

