-- ==== Sys2Proof/Laws/Checksum.lean ====
section
/-! SUPPORT. The buffer step of the checksum one byte at a time (spec/40_crc.md R72). -/

namespace Sys2Proof.Machine

@[simp] theorem crcBuf_cons (c : Half) (v : Byte) (bytes : List Byte) :
    crcBuf c (v :: bytes) = crcBuf (crcByte c v) bytes := rfl

theorem crcByte_eq (c : Half) (v : Byte) : crcByte c v = (bitsOf v).foldl crcBit c := rfl

/-- The data bit enters alone: the bit step is the step without it, XOR the bit at position 0. -/
theorem crcBit_eq_xor (c : Half) (b : Bool) : crcBit c b = crcBit c false ^^^ (BitVec.ofBool b).setWidth 16 := by
  have h : (c <<< 1) ||| (BitVec.ofBool b).setWidth 16 = (c <<< 1) ^^^ (BitVec.ofBool b).setWidth 16 := by
    ext i hi
    rcases Nat.eq_zero_or_pos i with rfl | h0
    · cases b <;> simp
    · have : (BitVec.setWidth 16 (BitVec.ofBool b))[i] = false := by
        simp only [BitVec.getElem_setWidth]
        exact BitVec.getLsbD_of_ge _ _ (by omega)
      simp [this]
  unfold crcBit
  split <;> simp [h, BitVec.xor_comm, BitVec.xor_assoc]

end Sys2Proof.Machine
end

