-- ==== Sys2Proof/Laws/Decode.lean ====
section
/-! SUPPORT. The small lemmas of the encoding: the fields of a packed word, the opcode map as a search, and the operand bits. -/

namespace Sys2Proof

/-- The word as a number: `(op << 16) | imm` (R61). -/
theorem packWord_toNat (c : Byte) (imm : Half) : (packWord c imm).toNat = c.toNat * 65536 + imm.toNat := by
  have h : (packWord c imm).toNat = c.toNat <<< 16 ||| imm.toNat := BitVec.toNat_append c imm
  rw [h, ← Nat.shiftLeft_add_eq_or_of_lt imm.isLt, Nat.shiftLeft_eq]

theorem opField_toNat (w : Cmd) : (opField w).toNat = w.toNat / 65536 := by
  have := w.isLt
  simp [opField, BitVec.extractLsb'_toNat, Nat.shiftRight_eq_div_pow]; omega

theorem immField_toNat (w : Cmd) : (immField w).toNat = w.toNat % 65536 := by
  simp [immField, BitVec.extractLsb'_toNat]

@[simp] theorem opField_packWord (c : Byte) (imm : Half) : opField (packWord c imm) = c := by
  apply BitVec.eq_of_toNat_eq
  have := imm.isLt
  rw [opField_toNat, packWord_toNat]; omega

@[simp] theorem immField_packWord (c : Byte) (imm : Half) : immField (packWord c imm) = imm := by
  apply BitVec.eq_of_toNat_eq
  have := imm.isLt
  rw [immField_toNat, packWord_toNat]; omega

@[simp] theorem packWord_fields (w : Cmd) : packWord (opField w) (immField w) = w := by
  apply BitVec.eq_of_toNat_eq
  rw [packWord_toNat, opField_toNat, immField_toNat]; omega

/-- A word is packed from its fields in one way only. -/
theorem packWord_eq_iff (c : Byte) (imm : Half) (w : Cmd) : packWord c imm = w ↔ opField w = c ∧ immField w = imm := by
  constructor
  · rintro rfl; simp
  · rintro ⟨rfl, rfl⟩; simp

theorem Op.mem_all (o : Op) : o ∈ Op.all := by cases o <;> decide

@[simp] theorem Op.ofCode?_code (o : Op) : Op.ofCode? o.code = some o := by cases o <;> rfl

theorem Op.code_of_ofCode? {c : Byte} {o : Op} (h : Op.ofCode? c = some o) : o.code = c := by
  simpa using List.find?_some h

theorem Op.ofCode?_eq_none {c : Byte} (h : Op.ofCode? c = none) (o : Op) : o.code ≠ c := by
  simpa using List.find?_eq_none.mp h o (Op.mem_all o)

@[simp] theorem Op.op_withImm (o : Op) (imm : Half) : (o.withImm imm).op = o := by cases o <;> rfl

/-- What the decoder answers, said once: the word's own fields decide. -/
theorem decode_packWord (o : Op) (imm : Half) :
    decode (packWord o.code imm) =
      if imm &&& o.form.mustBeZero = 0#16 then .ok (o.withImm imm) else .error .mustBeZeroBitSet := by
  simp [decode]

/-- Bit `i` of a form's must-be-zero mask is set from the form's width on (R56). -/
theorem Form.getLsbD_mustBeZero (f : Form) (i : Nat) (h : i < 16) : f.mustBeZero.getLsbD i = decide (f.bits ≤ i) := by
  have key : ∀ j : Fin 16, f.mustBeZero.getLsbD j.val = decide (f.bits ≤ j.val) := by cases f <;> decide
  exact key ⟨i, h⟩

/-- The unused bits of an immediate are zero exactly when its value is in the form's range (R56). -/
theorem Form.and_mustBeZero (f : Form) (imm : Half) : imm &&& f.mustBeZero = 0#16 ↔ imm.toNat < 2 ^ f.bits := by
  constructor
  · intro h
    refine Nat.lt_pow_two_of_testBit _ fun i hi => ?_
    by_cases h16 : i < 16
    · have hb : imm.getLsbD i = false := by
        simpa [Form.getLsbD_mustBeZero f i h16, hi] using congrArg (·.getLsbD i) h
      exact hb
    · exact BitVec.getLsbD_of_ge imm i (by omega)
  · intro h
    apply BitVec.eq_of_getLsbD_eq
    intro i hi
    rw [BitVec.getLsbD_and, Form.getLsbD_mustBeZero f i hi, BitVec.getLsbD_zero]
    by_cases hb : f.bits ≤ i
    · have : imm.getLsbD i = false :=
        Nat.testBit_lt_two_pow (Nat.lt_of_lt_of_le h (Nat.pow_le_pow_right (by decide) hb))
      simp [this]
    · simp [hb]

/-- What the decoder answers, by the operand's range (R56, R58). -/
theorem decode_packWord_range (o : Op) (imm : Half) :
    decode (packWord o.code imm) =
      if imm.toNat < 2 ^ o.form.bits then .ok (o.withImm imm) else .error .mustBeZeroBitSet := by
  rw [decode_packWord]
  simp only [Form.and_mustBeZero]

/-- What a word that decodes looks like. -/
theorem decode_ok {w : Cmd} {i : Instr} (h : decode w = .ok i) :
    opField w = i.op.code ∧ immField w &&& i.op.form.mustBeZero = 0#16 ∧ i = i.op.withImm (immField w) := by
  unfold decode at h
  split at h
  · cases h
  · rename_i o ho
    split at h
    · cases h
      refine ⟨?_, ?_, ?_⟩ <;> simp_all [Op.code_of_ofCode? ho]
    · cases h

end Sys2Proof
end

