-- ==== Sys2Proof/Laws/State.lean ====
section
/-! SUPPORT. One lemma per field per named state update, true by unfolding, so that no later proof unfolds a record update. -/

namespace Sys2Proof.Machine

/-! ### emit -/

@[simp] theorem emit_crc (f : List Byte) (s : State) : (emit f s).crc = s.crc := rfl
@[simp] theorem emit_addr (f : List Byte) (s : State) : (emit f s).addr = s.addr := rfl
@[simp] theorem emit_cnt (f : List Byte) (s : State) : (emit f s).cnt = s.cnt := rfl
@[simp] theorem emit_idx (f : List Byte) (s : State) : (emit f s).idx = s.idx := rfl
@[simp] theorem emit_len (f : List Byte) (s : State) : (emit f s).len = s.len := rfl
@[simp] theorem emit_trl (f : List Byte) (s : State) : (emit f s).trl = s.trl := rfl
@[simp] theorem emit_ten (f : List Byte) (s : State) : (emit f s).ten = s.ten := rfl
@[simp] theorem emit_prof (f : List Byte) (s : State) : (emit f s).prof = s.prof := rfl
@[simp] theorem emit_fault (f : List Byte) (s : State) : (emit f s).fault = s.fault := rfl
@[simp] theorem emit_finfo (f : List Byte) (s : State) : (emit f s).finfo = s.finfo := rfl
@[simp] theorem emit_buf (f : List Byte) (s : State) : (emit f s).buf = s.buf := rfl
@[simp] theorem emit_out (f : List Byte) (s : State) : (emit f s).out = s.out ++ [f] := rfl
@[simp] theorem emit_pc (f : List Byte) (s : State) : (emit f s).pc = s.pc := rfl
@[simp] theorem emit_cmds (f : List Byte) (s : State) : (emit f s).cmds = s.cmds := rfl
@[simp] theorem emit_bufEpoch (f : List Byte) (s : State) : (emit f s).bufEpoch = s.bufEpoch := rfl

/-! ### writeByte -/

@[simp] theorem writeByte_crc (a : Nat) (v : Byte) (s : State) : (writeByte a v s).crc = s.crc := rfl
@[simp] theorem writeByte_addr (a : Nat) (v : Byte) (s : State) : (writeByte a v s).addr = s.addr := rfl
@[simp] theorem writeByte_cnt (a : Nat) (v : Byte) (s : State) : (writeByte a v s).cnt = s.cnt := rfl
@[simp] theorem writeByte_idx (a : Nat) (v : Byte) (s : State) : (writeByte a v s).idx = s.idx := rfl
@[simp] theorem writeByte_len (a : Nat) (v : Byte) (s : State) : (writeByte a v s).len = s.len := rfl
@[simp] theorem writeByte_trl (a : Nat) (v : Byte) (s : State) : (writeByte a v s).trl = s.trl := rfl
@[simp] theorem writeByte_ten (a : Nat) (v : Byte) (s : State) : (writeByte a v s).ten = s.ten := rfl
@[simp] theorem writeByte_prof (a : Nat) (v : Byte) (s : State) : (writeByte a v s).prof = s.prof := rfl
@[simp] theorem writeByte_fault (a : Nat) (v : Byte) (s : State) : (writeByte a v s).fault = s.fault := rfl
@[simp] theorem writeByte_finfo (a : Nat) (v : Byte) (s : State) : (writeByte a v s).finfo = s.finfo := rfl
@[simp] theorem writeByte_buf (a : Nat) (v : Byte) (s : State) : (writeByte a v s).buf = Memory.insert s.buf a v := rfl
@[simp] theorem writeByte_out (a : Nat) (v : Byte) (s : State) : (writeByte a v s).out = s.out := rfl
@[simp] theorem writeByte_pc (a : Nat) (v : Byte) (s : State) : (writeByte a v s).pc = s.pc := rfl
@[simp] theorem writeByte_cmds (a : Nat) (v : Byte) (s : State) : (writeByte a v s).cmds = s.cmds := rfl
@[simp] theorem writeByte_bufEpoch (a : Nat) (v : Byte) (s : State) : (writeByte a v s).bufEpoch = s.bufEpoch := rfl

/-! ### fillBytes -/

@[simp] theorem fillBytes_crc (n : Nat) (v : Byte) (s : State) : (fillBytes n v s).crc = s.crc := rfl
@[simp] theorem fillBytes_addr (n : Nat) (v : Byte) (s : State) : (fillBytes n v s).addr = s.addr := rfl
@[simp] theorem fillBytes_cnt (n : Nat) (v : Byte) (s : State) : (fillBytes n v s).cnt = s.cnt := rfl
@[simp] theorem fillBytes_idx (n : Nat) (v : Byte) (s : State) : (fillBytes n v s).idx = s.idx := rfl
@[simp] theorem fillBytes_len (n : Nat) (v : Byte) (s : State) : (fillBytes n v s).len = s.len := rfl
@[simp] theorem fillBytes_trl (n : Nat) (v : Byte) (s : State) : (fillBytes n v s).trl = s.trl := rfl
@[simp] theorem fillBytes_ten (n : Nat) (v : Byte) (s : State) : (fillBytes n v s).ten = s.ten := rfl
@[simp] theorem fillBytes_prof (n : Nat) (v : Byte) (s : State) : (fillBytes n v s).prof = s.prof := rfl
@[simp] theorem fillBytes_fault (n : Nat) (v : Byte) (s : State) : (fillBytes n v s).fault = s.fault := rfl
@[simp] theorem fillBytes_finfo (n : Nat) (v : Byte) (s : State) : (fillBytes n v s).finfo = s.finfo := rfl
@[simp] theorem fillBytes_buf (n : Nat) (v : Byte) (s : State) : (fillBytes n v s).buf = Memory.fill s.buf n v := rfl
@[simp] theorem fillBytes_out (n : Nat) (v : Byte) (s : State) : (fillBytes n v s).out = s.out := rfl
@[simp] theorem fillBytes_pc (n : Nat) (v : Byte) (s : State) : (fillBytes n v s).pc = s.pc := rfl
@[simp] theorem fillBytes_cmds (n : Nat) (v : Byte) (s : State) : (fillBytes n v s).cmds = s.cmds := rfl
@[simp] theorem fillBytes_bufEpoch (n : Nat) (v : Byte) (s : State) : (fillBytes n v s).bufEpoch = s.bufEpoch := rfl

/-! ### setTrailer -/

@[simp] theorem setTrailer_crc (t : Half) (s : State) : (setTrailer t s).crc = s.crc := rfl
@[simp] theorem setTrailer_addr (t : Half) (s : State) : (setTrailer t s).addr = s.addr := rfl
@[simp] theorem setTrailer_cnt (t : Half) (s : State) : (setTrailer t s).cnt = s.cnt := rfl
@[simp] theorem setTrailer_idx (t : Half) (s : State) : (setTrailer t s).idx = s.idx := rfl
@[simp] theorem setTrailer_len (t : Half) (s : State) : (setTrailer t s).len = s.len := rfl
@[simp] theorem setTrailer_trl (t : Half) (s : State) : (setTrailer t s).trl = t := rfl
@[simp] theorem setTrailer_ten (t : Half) (s : State) : (setTrailer t s).ten = true := rfl
@[simp] theorem setTrailer_prof (t : Half) (s : State) : (setTrailer t s).prof = s.prof := rfl
@[simp] theorem setTrailer_fault (t : Half) (s : State) : (setTrailer t s).fault = s.fault := rfl
@[simp] theorem setTrailer_finfo (t : Half) (s : State) : (setTrailer t s).finfo = s.finfo := rfl
@[simp] theorem setTrailer_buf (t : Half) (s : State) : (setTrailer t s).buf = s.buf := rfl
@[simp] theorem setTrailer_out (t : Half) (s : State) : (setTrailer t s).out = s.out := rfl
@[simp] theorem setTrailer_pc (t : Half) (s : State) : (setTrailer t s).pc = s.pc := rfl
@[simp] theorem setTrailer_cmds (t : Half) (s : State) : (setTrailer t s).cmds = s.cmds := rfl
@[simp] theorem setTrailer_bufEpoch (t : Half) (s : State) : (setTrailer t s).bufEpoch = s.bufEpoch := rfl

/-! ### clearTrailer -/

@[simp] theorem clearTrailer_crc (s : State) : (clearTrailer s).crc = s.crc := rfl
@[simp] theorem clearTrailer_addr (s : State) : (clearTrailer s).addr = s.addr := rfl
@[simp] theorem clearTrailer_cnt (s : State) : (clearTrailer s).cnt = s.cnt := rfl
@[simp] theorem clearTrailer_idx (s : State) : (clearTrailer s).idx = s.idx := rfl
@[simp] theorem clearTrailer_len (s : State) : (clearTrailer s).len = s.len := rfl
@[simp] theorem clearTrailer_trl (s : State) : (clearTrailer s).trl = s.trl := rfl
@[simp] theorem clearTrailer_ten (s : State) : (clearTrailer s).ten = false := rfl
@[simp] theorem clearTrailer_prof (s : State) : (clearTrailer s).prof = s.prof := rfl
@[simp] theorem clearTrailer_fault (s : State) : (clearTrailer s).fault = s.fault := rfl
@[simp] theorem clearTrailer_finfo (s : State) : (clearTrailer s).finfo = s.finfo := rfl
@[simp] theorem clearTrailer_buf (s : State) : (clearTrailer s).buf = s.buf := rfl
@[simp] theorem clearTrailer_out (s : State) : (clearTrailer s).out = s.out := rfl
@[simp] theorem clearTrailer_pc (s : State) : (clearTrailer s).pc = s.pc := rfl
@[simp] theorem clearTrailer_cmds (s : State) : (clearTrailer s).cmds = s.cmds := rfl
@[simp] theorem clearTrailer_bufEpoch (s : State) : (clearTrailer s).bufEpoch = s.bufEpoch := rfl

/-! ### composeFrame -/

@[simp] theorem composeFrame_crc (s : State) : (composeFrame s).crc = s.crc := rfl
@[simp] theorem composeFrame_addr (s : State) : (composeFrame s).addr = s.addr := rfl
@[simp] theorem composeFrame_cnt (s : State) : (composeFrame s).cnt = s.cnt := rfl
@[simp] theorem composeFrame_idx (s : State) : (composeFrame s).idx = s.idx := rfl
@[simp] theorem composeFrame_len (s : State) : (composeFrame s).len = s.len := rfl
@[simp] theorem composeFrame_trl (s : State) : (composeFrame s).trl = s.trl := rfl
@[simp] theorem composeFrame_ten (s : State) : (composeFrame s).ten = s.ten := rfl
@[simp] theorem composeFrame_prof (s : State) : (composeFrame s).prof = s.prof := rfl
@[simp] theorem composeFrame_fault (s : State) : (composeFrame s).fault = s.fault := rfl
@[simp] theorem composeFrame_finfo (s : State) : (composeFrame s).finfo = s.finfo := rfl
@[simp] theorem composeFrame_buf (s : State) : (composeFrame s).buf = s.buf := rfl
@[simp] theorem composeFrame_out (s : State) : (composeFrame s).out = s.out ++ [frameBytes s.idx s.len (readSlice s s.addr.toNat s.len.toNat) (trailerOf s)] := rfl
@[simp] theorem composeFrame_pc (s : State) : (composeFrame s).pc = s.pc := rfl
@[simp] theorem composeFrame_cmds (s : State) : (composeFrame s).cmds = s.cmds := rfl
@[simp] theorem composeFrame_bufEpoch (s : State) : (composeFrame s).bufEpoch = s.bufEpoch := rfl

/-! ### forceSentinel -/

@[simp] theorem forceSentinel_crc (p : Profile) (s : State) : (forceSentinel p s).crc = s.crc := rfl
@[simp] theorem forceSentinel_addr (p : Profile) (s : State) : (forceSentinel p s).addr = s.addr := rfl
@[simp] theorem forceSentinel_cnt (p : Profile) (s : State) : (forceSentinel p s).cnt = s.cnt := rfl
@[simp] theorem forceSentinel_idx (p : Profile) (s : State) : (forceSentinel p s).idx = s.idx := rfl
@[simp] theorem forceSentinel_len (p : Profile) (s : State) : (forceSentinel p s).len = s.len := rfl
@[simp] theorem forceSentinel_trl (p : Profile) (s : State) : (forceSentinel p s).trl = s.trl := rfl
@[simp] theorem forceSentinel_ten (p : Profile) (s : State) : (forceSentinel p s).ten = s.ten := rfl
@[simp] theorem forceSentinel_prof (p : Profile) (s : State) : (forceSentinel p s).prof = s.prof := rfl
@[simp] theorem forceSentinel_fault (p : Profile) (s : State) : (forceSentinel p s).fault = s.fault := rfl
@[simp] theorem forceSentinel_finfo (p : Profile) (s : State) : (forceSentinel p s).finfo = s.finfo := rfl
@[simp] theorem forceSentinel_buf (p : Profile) (s : State) : (forceSentinel p s).buf = Memory.insert (Memory.insert s.buf (Config.imgSize p - 2) 0x00#8) (Config.imgSize p - 1) 0x00#8 := rfl
@[simp] theorem forceSentinel_out (p : Profile) (s : State) : (forceSentinel p s).out = s.out := rfl
@[simp] theorem forceSentinel_pc (p : Profile) (s : State) : (forceSentinel p s).pc = s.pc := rfl
@[simp] theorem forceSentinel_cmds (p : Profile) (s : State) : (forceSentinel p s).cmds = s.cmds := rfl
@[simp] theorem forceSentinel_bufEpoch (p : Profile) (s : State) : (forceSentinel p s).bufEpoch = s.bufEpoch := rfl

/-! ### raise -/

@[simp] theorem raise_crc (c : FaultCode) (w : Cmd) (s : State) : (raise c w s).crc = s.crc := rfl
@[simp] theorem raise_addr (c : FaultCode) (w : Cmd) (s : State) : (raise c w s).addr = s.addr := rfl
@[simp] theorem raise_cnt (c : FaultCode) (w : Cmd) (s : State) : (raise c w s).cnt = s.cnt := rfl
@[simp] theorem raise_idx (c : FaultCode) (w : Cmd) (s : State) : (raise c w s).idx = s.idx := rfl
@[simp] theorem raise_len (c : FaultCode) (w : Cmd) (s : State) : (raise c w s).len = s.len := rfl
@[simp] theorem raise_trl (c : FaultCode) (w : Cmd) (s : State) : (raise c w s).trl = s.trl := rfl
@[simp] theorem raise_ten (c : FaultCode) (w : Cmd) (s : State) : (raise c w s).ten = s.ten := rfl
@[simp] theorem raise_prof (c : FaultCode) (w : Cmd) (s : State) : (raise c w s).prof = s.prof := rfl
@[simp] theorem raise_fault (c : FaultCode) (w : Cmd) (s : State) : (raise c w s).fault = c.code := rfl
@[simp] theorem raise_finfo (c : FaultCode) (w : Cmd) (s : State) : (raise c w s).finfo = w := rfl
@[simp] theorem raise_buf (c : FaultCode) (w : Cmd) (s : State) : (raise c w s).buf = s.buf := rfl
@[simp] theorem raise_out (c : FaultCode) (w : Cmd) (s : State) : (raise c w s).out = s.out := rfl
@[simp] theorem raise_pc (c : FaultCode) (w : Cmd) (s : State) : (raise c w s).pc = s.pc := rfl
@[simp] theorem raise_cmds (c : FaultCode) (w : Cmd) (s : State) : (raise c w s).cmds = s.cmds := rfl
@[simp] theorem raise_bufEpoch (c : FaultCode) (w : Cmd) (s : State) : (raise c w s).bufEpoch = s.bufEpoch := rfl

/-! ### resetState -/

@[simp] theorem resetState_crc (s : State) : (resetState s).crc = 0xFFFF#16 := rfl
@[simp] theorem resetState_addr (s : State) : (resetState s).addr = 0#16 := rfl
@[simp] theorem resetState_cnt (s : State) : (resetState s).cnt = 0#16 := rfl
@[simp] theorem resetState_idx (s : State) : (resetState s).idx = 0#16 := rfl
@[simp] theorem resetState_len (s : State) : (resetState s).len = 0#16 := rfl
@[simp] theorem resetState_trl (s : State) : (resetState s).trl = 0#16 := rfl
@[simp] theorem resetState_ten (s : State) : (resetState s).ten = false := rfl
@[simp] theorem resetState_prof (s : State) : (resetState s).prof = 0b00#2 := rfl
@[simp] theorem resetState_fault (s : State) : (resetState s).fault = 0x00#8 := rfl
@[simp] theorem resetState_finfo (s : State) : (resetState s).finfo = 0x000000#24 := rfl
@[simp] theorem resetState_buf (s : State) : (resetState s).buf = [] := rfl
@[simp] theorem resetState_out (s : State) : (resetState s).out = s.out := rfl
@[simp] theorem resetState_pc (s : State) : (resetState s).pc = s.pc := rfl
@[simp] theorem resetState_cmds (s : State) : (resetState s).cmds = s.cmds := rfl
@[simp] theorem resetState_bufEpoch (s : State) : (resetState s).bufEpoch = s.bufEpoch + 1 := rfl

/-! ### imageChecksum -/

@[simp] theorem imageChecksum_crc (p : Profile) (s : State) : (imageChecksum p s).crc = checksum (readSlice s 0 (Config.imgSize p)) 0xFFFF#16 := rfl
@[simp] theorem imageChecksum_addr (p : Profile) (s : State) : (imageChecksum p s).addr = 0#16 := rfl
@[simp] theorem imageChecksum_cnt (p : Profile) (s : State) : (imageChecksum p s).cnt = BitVec.ofNat 16 (Config.imgSize p) := rfl
@[simp] theorem imageChecksum_idx (p : Profile) (s : State) : (imageChecksum p s).idx = s.idx := rfl
@[simp] theorem imageChecksum_len (p : Profile) (s : State) : (imageChecksum p s).len = s.len := rfl
@[simp] theorem imageChecksum_trl (p : Profile) (s : State) : (imageChecksum p s).trl = s.trl := rfl
@[simp] theorem imageChecksum_ten (p : Profile) (s : State) : (imageChecksum p s).ten = s.ten := rfl
@[simp] theorem imageChecksum_prof (p : Profile) (s : State) : (imageChecksum p s).prof = s.prof := rfl
@[simp] theorem imageChecksum_fault (p : Profile) (s : State) : (imageChecksum p s).fault = s.fault := rfl
@[simp] theorem imageChecksum_finfo (p : Profile) (s : State) : (imageChecksum p s).finfo = s.finfo := rfl
@[simp] theorem imageChecksum_buf (p : Profile) (s : State) : (imageChecksum p s).buf = s.buf := rfl
@[simp] theorem imageChecksum_out (p : Profile) (s : State) : (imageChecksum p s).out = s.out := rfl
@[simp] theorem imageChecksum_pc (p : Profile) (s : State) : (imageChecksum p s).pc = s.pc := rfl
@[simp] theorem imageChecksum_cmds (p : Profile) (s : State) : (imageChecksum p s).cmds = s.cmds := rfl
@[simp] theorem imageChecksum_bufEpoch (p : Profile) (s : State) : (imageChecksum p s).bufEpoch = s.bufEpoch := rfl

/-! ### startRun -/

@[simp] theorem startRun_crc (ws : List Cmd) (s : State) : (startRun ws s).crc = s.crc := rfl
@[simp] theorem startRun_addr (ws : List Cmd) (s : State) : (startRun ws s).addr = s.addr := rfl
@[simp] theorem startRun_cnt (ws : List Cmd) (s : State) : (startRun ws s).cnt = s.cnt := rfl
@[simp] theorem startRun_idx (ws : List Cmd) (s : State) : (startRun ws s).idx = s.idx := rfl
@[simp] theorem startRun_len (ws : List Cmd) (s : State) : (startRun ws s).len = s.len := rfl
@[simp] theorem startRun_trl (ws : List Cmd) (s : State) : (startRun ws s).trl = s.trl := rfl
@[simp] theorem startRun_ten (ws : List Cmd) (s : State) : (startRun ws s).ten = s.ten := rfl
@[simp] theorem startRun_prof (ws : List Cmd) (s : State) : (startRun ws s).prof = s.prof := rfl
@[simp] theorem startRun_fault (ws : List Cmd) (s : State) : (startRun ws s).fault = s.fault := rfl
@[simp] theorem startRun_finfo (ws : List Cmd) (s : State) : (startRun ws s).finfo = s.finfo := rfl
@[simp] theorem startRun_buf (ws : List Cmd) (s : State) : (startRun ws s).buf = s.buf := rfl
@[simp] theorem startRun_out (ws : List Cmd) (s : State) : (startRun ws s).out = s.out := rfl
@[simp] theorem startRun_pc (ws : List Cmd) (s : State) : (startRun ws s).pc = 0 := rfl
@[simp] theorem startRun_cmds (ws : List Cmd) (s : State) : (startRun ws s).cmds = ws := rfl
@[simp] theorem startRun_bufEpoch (ws : List Cmd) (s : State) : (startRun ws s).bufEpoch = s.bufEpoch := rfl

end Sys2Proof.Machine
end

