-- ==== Sys2Proof/Laws/Memory.lean ====
section
/-! SUPPORT. What the operations over BUF do to a later read, in every memory, and that each of them keeps the canonical form. -/

namespace Sys2Proof.Machine

theorem Memory.lookup_insert (m : Memory) (x y : Nat) (v : Byte) :
    Memory.lookup (Memory.insert m x v) y = if y = x then some v else Memory.lookup m y := by
  induction m with
  | nil => simp only [Memory.insert, Memory.lookup]; grind
  | cons c m ih =>
    obtain ⟨a, w⟩ := c
    simp only [Memory.insert]
    split
    · simp only [Memory.lookup, ih]; grind
    · split
      · simp only [Memory.lookup]; grind
      · simp only [Memory.lookup]; grind

/-- Writing the byte that is there changes nothing. -/
theorem Memory.insert_of_lookup (m : Memory) (x : Nat) (v : Byte) (h : Memory.lookup m x = some v) :
    Memory.insert m x v = m := by
  induction m with
  | nil => simp [Memory.lookup] at h
  | cons c m ih =>
    obtain ⟨a, w⟩ := c
    simp only [Memory.lookup] at h
    simp only [Memory.insert]
    grind

theorem Memory.lookup_filter_ge (m : Memory) (n x : Nat) (h : n ≤ x) :
    Memory.lookup (m.filter (fun c => n ≤ c.1)) x = Memory.lookup m x := by
  induction m with
  | nil => rfl
  | cons c m ih =>
    obtain ⟨a, w⟩ := c
    by_cases ha : n ≤ a
    · simp [ha, Memory.lookup, ih]
    · have : a < x := by omega
      simp [ha, Memory.lookup, ih, this]

theorem Memory.lookup_append_of_lt (l m : Memory) (x : Nat) (h : ∀ c ∈ l, c.1 < x) :
    Memory.lookup (l ++ m) x = Memory.lookup m x := by
  induction l with
  | nil => rfl
  | cons c l ih =>
    have hc := h c (by simp)
    simp [Memory.lookup, hc, ih (fun d hd => h d (by simp [hd]))]

theorem Memory.lookup_run (a n x : Nat) (v : Byte) (m : Memory) (ha : a ≤ x) (hx : x < a + n) :
    Memory.lookup ((List.range' a n).map (fun k => (k, v)) ++ m) x = some v := by
  induction n generalizing a with
  | zero => omega
  | succ n ih =>
    rw [List.range'_succ]
    by_cases h : a = x
    · simp [Memory.lookup, h]
    · have : a < x := by omega
      simpa [Memory.lookup, this] using ih (a + 1) (by omega) (by omega)

theorem Memory.lookup_fill (m : Memory) (n x : Nat) (v : Byte) :
    Memory.lookup (Memory.fill m n v) x = if x < n then some v else Memory.lookup m x := by
  unfold Memory.fill
  split
  case isTrue h => rw [List.range_eq_range']; exact Memory.lookup_run 0 n x v _ (by omega) (by omega)
  case isFalse h =>
    rw [Memory.lookup_append_of_lt _ _ _ (by intro c hc; simp at hc; grind), Memory.lookup_filter_ge _ _ _ (by omega)]

/-- The one read of a byte, in the state after a byte write. -/
@[simp] theorem readByte_writeByte (s : State) (a x : Nat) (v : Byte) :
    readByte (writeByte a v s) x = if x = a then v else readByte s x := by
  simp only [readByte, writeByte_buf, writeByte_bufEpoch, Memory.lookup_insert]; split <;> rfl

/-- The one read of a byte, in the state after a fill. -/
@[simp] theorem readByte_fillBytes (s : State) (n x : Nat) (v : Byte) :
    readByte (fillBytes n v s) x = if x < n then v else readByte s x := by
  simp only [readByte, fillBytes_buf, fillBytes_bufEpoch, Memory.lookup_fill]; split <;> rfl

/-- After a reset every byte reads as the free value of the new epoch. -/
@[simp] theorem readByte_resetState (s : State) (x : Nat) :
    readByte (resetState s) x = Config.unspecifiedByte (s.bufEpoch + 1) x := rfl

/-- A byte's value depends on BUF and its epoch alone. -/
theorem readByte_congr {s t : State} (hb : t.buf = s.buf) (he : t.bufEpoch = s.bufEpoch) (x : Nat) :
    readByte t x = readByte s x := by simp [readByte, hb, he]

theorem Memory.lookup_dropWhile (m : Memory) (a x : Nat) (h : a ≤ x) :
    Memory.lookup (m.dropWhile (fun c => c.1 < a)) x = Memory.lookup m x := by
  induction m with
  | nil => rfl
  | cons c m ih =>
    obtain ⟨b, w⟩ := c
    by_cases hb : b < a
    · have : b < x := by omega
      simp [hb, Memory.lookup, ih, this]
    · simp [hb]

theorem Memory.readRange_cons_of_lookup (m : Memory) (c : Host.Cell) (rest : Memory) (a : Nat)
    (h : m.dropWhile (fun c => c.1 < a) = c :: rest) :
    Memory.lookup m a = if c.1 = a then some c.2 else none := by
  have hc : ¬ c.1 < a := by
    intro hlt
    have := List.head_dropWhile_not (p := fun c : Host.Cell => decide (c.1 < a)) (l := m) (by simp [h])
    simp [h, hlt] at this
  rw [← Memory.lookup_dropWhile m a a (Nat.le_refl a), h]
  obtain ⟨b, w⟩ := c
  simp only at hc
  simp [Memory.lookup, hc]

/-- The walk along the list reads each byte of the range, in every memory. -/
theorem Memory.readRange_eq_map (free : Nat → Byte) (m : Memory) (a n : Nat) :
    Memory.readRange free m a n = (List.range n).map (fun k => (Memory.lookup m (a + k)).getD (free (a + k))) := by
  induction n generalizing m a with
  | zero => simp [Memory.readRange]
  | succ n ih =>
    rw [List.range_succ_eq_map]
    simp only [List.map_cons, List.map_map, Nat.add_zero, Memory.readRange]
    have shift (m' : Memory) (h : ∀ x, a < x → Memory.lookup m' x = Memory.lookup m x) :
        Memory.readRange free m' (a + 1) n =
          (List.range n).map ((fun k => (Memory.lookup m (a + k)).getD (free (a + k))) ∘ Nat.succ) := by
      rw [ih]
      apply List.map_congr_left
      intro k _
      simp only [Function.comp]
      rw [h (a + 1 + k) (by omega)]
      congr 2 <;> omega
    split
    · rename_i h
      have hl : ∀ x, a ≤ x → Memory.lookup m x = none := fun x hx => by
        rw [← Memory.lookup_dropWhile m a x hx, h]; rfl
      rw [shift [] (fun x hx => by rw [hl x (by omega)]; rfl), hl a (Nat.le_refl a)]; rfl
    · rename_i x v rest h
      have h0 := Memory.readRange_cons_of_lookup m (x, v) rest a h
      have hd : ∀ y, a < y → Memory.lookup ((x, v) :: rest) y = Memory.lookup m y := fun y hy => by
        rw [← h]; exact Memory.lookup_dropWhile m a y (by omega)
      split
      · rename_i hxa
        rw [shift rest (fun y hy => by rw [← hd y hy]; simp [Memory.lookup, hxa, hy]), h0]; simp [hxa]
      · rename_i hxa
        rw [shift _ hd, h0]; simp [hxa]

/-- `BUF[a .. a+n-1]` is the list of its bytes, each read alone. -/
theorem readSlice_eq_map (s : State) (a n : Nat) :
    readSlice s a n = (List.range n).map (fun k => readByte s (a + k)) :=
  Memory.readRange_eq_map _ _ _ _

@[simp] theorem readSlice_length (s : State) (a n : Nat) : (readSlice s a n).length = n := by
  simp [readSlice_eq_map]

/-- A range reads the same when each of its bytes does. -/
theorem readSlice_congr {s t : State} (a n : Nat) (h : ∀ x, a ≤ x → x < a + n → readByte t x = readByte s x) :
    readSlice t a n = readSlice s a n := by
  simp only [readSlice_eq_map]
  apply List.map_congr_left
  intro k hk
  exact h _ (by omega) (by simp at hk; omega)

/-! ### The canonical form -/

theorem Memory.wf_nil : Memory.wf [] := by decide

theorem Memory.mem_insert (m : Memory) (x : Nat) (v : Byte) (c : Host.Cell) (h : c ∈ Memory.insert m x v) :
    c = (x, v) ∨ c ∈ m := by
  induction m with
  | nil => simpa [Memory.insert] using h
  | cons d m ih =>
    simp only [Memory.insert] at h
    grind

theorem Memory.wf_insert (m : Memory) (x : Nat) (v : Byte) (h : Memory.wf m) (hx : x < Config.bufSize) :
    Memory.wf (Memory.insert m x v) := by
  refine ⟨?_, fun c hc => ?_⟩
  · have hp := h.1
    clear h
    induction m with
    | nil => simp [Memory.insert]
    | cons d m ih =>
      have ⟨hd, hm⟩ := List.pairwise_cons.mp hp
      simp only [Memory.insert]
      split
      · refine List.pairwise_cons.mpr ⟨fun c hc => ?_, ih hm⟩
        rcases Memory.mem_insert m x v c hc with rfl | hc
        · assumption
        · exact hd c hc
      · split
        · exact List.pairwise_cons.mpr ⟨fun c hc => by have := hd c hc; simp_all, hm⟩
        · refine List.pairwise_cons.mpr ⟨fun c hc => ?_, hp⟩
          rcases List.mem_cons.mp hc with rfl | hc
          · simp only; omega
          · have := hd c hc; simp only at *; omega
  · rcases Memory.mem_insert m x v c hc with rfl | hc
    · exact hx
    · exact h.2 c hc

theorem Memory.wf_fill (m : Memory) (n : Nat) (v : Byte) (h : Memory.wf m) (hn : n ≤ Config.bufSize) :
    Memory.wf (Memory.fill m n v) := by
  refine ⟨List.pairwise_append.mpr ⟨?_, h.1.filter _, ?_⟩, ?_⟩
  · rw [List.pairwise_map]; exact List.pairwise_lt_range
  · intro c hc d hd
    simp at hc hd; grind
  · intro c hc
    rcases List.mem_append.mp hc with hc | hc
    · simp at hc; grind
    · exact h.2 c (List.mem_filter.mp hc).1

theorem Memory.wf_reset : Memory.wf State.reset.buf := Memory.wf_nil

end Sys2Proof.Machine
end

