-- ==== Sys2Proof/Laws/Ops.lean ====
section
/-! SUPPORT. What each shared operation can do, said once: the common execution rule, fault entry, illegal words, the host's list, the operand checks. -/

namespace Sys2Proof.Machine

/-- Everything the common execution rule can answer (R132). -/
theorem perform_cases {i : Instr} {rule : Rule} {s t : State} (h : perform i rule s = .next t) :
    (s.halted ∧ t = s) ∨
    (s.fault = 0x00#8 ∧ ∃ u, rule s = .ok u ∧ t = { u with pc := s.pc + 1 }) ∨
    (s.fault = 0x00#8 ∧ ∃ c, rule s = .error c ∧ t = raise c (encode i) s) := by
  unfold perform at h
  by_cases hh : s.fault = 0x00#8
  · rw [if_neg (by simpa [State.halted] using hh)] at h
    split at h <;> cases h
    · exact .inr (.inl ⟨hh, _, ‹_›, rfl⟩)
    · exact .inr (.inr ⟨hh, _, ‹_›, rfl⟩)
  · rw [if_pos hh] at h
    cases h
    exact .inl ⟨hh, rfl⟩

theorem perform_halted (i : Instr) (rule : Rule) {s : State} (h : s.halted) : perform i rule s = .next s := if_pos h

theorem perform_ok (i : Instr) {rule : Rule} {s u : State} (h : s.fault = 0x00#8) (hr : rule s = .ok u) :
    perform i rule s = .next { u with pc := s.pc + 1 } := by
  simp [perform, h, hr]

theorem perform_error (i : Instr) {rule : Rule} {s : State} {c : FaultCode} (h : s.fault = 0x00#8)
    (hr : rule s = .error c) : perform i rule s = .next (raise c (encode i) s) := by
  simp [perform, h, hr]

/-- The common execution rule always answers a next state. -/
theorem perform_next (i : Instr) (rule : Rule) (s : State) : ∃ t, perform i rule s = .next t := by
  unfold perform; split
  · exact ⟨_, rfl⟩
  · split <;> exact ⟨_, rfl⟩

/-- Everything an illegal word can do (R132, R141). -/
theorem illegalWord_cases {w : Cmd} {s t : State} (h : illegalWord w s = .next t) :
    (s.halted ∧ t = s) ∨ (s.fault = 0x00#8 ∧ t = raise .illegal w s) := by
  unfold illegalWord at h
  split at h <;> cases h
  · exact .inl ⟨‹_›, rfl⟩
  · exact .inr ⟨by simpa [State.halted] using ‹¬ s.halted›, rfl⟩

theorem FaultCode.code_ne_zero (c : FaultCode) : c.code ≠ 0x00#8 := by cases c <;> decide

theorem FaultCode.code_injective {c d : FaultCode} (h : c.code = d.code) : c = d := by
  cases c <;> cases d <;> first | rfl | (exact absurd h (by decide))

/-- The word placed in the host's list is the one at its index. -/
@[simp] theorem placeWord_getElem? (cmds : List Cmd) (k : Nat) (w : Cmd) : (placeWord cmds k w)[k]? = some w := by
  unfold placeWord
  rw [List.getElem?_append_right (by simp; omega)]
  rw [show k - (cmds.take k ++ List.replicate (k - cmds.length) 0x000000#24).length = 0 by simp; omega]
  rfl

/-! ### Operand checks -/

theorem addrRange_ok {n : Half} {s : State} (h : rangeInBuf s.addr.toNat n.toNat) :
    addrRange n s = .ok (readSlice s s.addr.toNat n.toNat) := if_pos h

theorem addrRange_error {n : Half} {s : State} (h : ¬ rangeInBuf s.addr.toNat n.toNat) :
    addrRange n s = .error .bounds := if_neg h

theorem withProfile_ok {k : Profile → State → State} {s : State} {p : Profile} (h : selectedProfile s.prof = some p) :
    withProfile k s = .ok (k p s) := by simp [withProfile, h]

theorem withProfile_error {k : Profile → State → State} {s : State} (h : selectedProfile s.prof = none) :
    withProfile k s = .error .profile := by simp [withProfile, h]

theorem storePostIncrement_ok {v : Byte} {s : State} (h : addrInBuf s.addr.toNat) :
    storePostIncrement v s = .ok { writeByte s.addr.toNat v s with addr := s.addr + 1#16 } := if_pos h

theorem storePostIncrement_error {v : Byte} {s : State} (h : ¬ addrInBuf s.addr.toNat) :
    storePostIncrement v s = .error .bounds := if_neg h

@[simp] theorem selectedProfile_profOf (p : Profile) : selectedProfile (profOf p) = some p := by cases p <;> decide

@[simp] theorem profV_profOf (p : Profile) : profV (profOf p) = true := by cases p <;> decide

theorem selectedProfile_eq_none (q : BitVec 2) : selectedProfile q = none ↔ profV q = false := by
  unfold selectedProfile; cases profV q <;> simp

/-! ### Profile constants (R4) -/

@[simp] theorem nBlk_mul_blkLen (p : Profile) : Config.nBlk p * Config.blkLen p = Config.imgSize p := by cases p <;> rfl

theorem imgSize_le_bufSize (p : Profile) : Config.imgSize p ≤ Config.bufSize := by cases p <;> decide

theorem two_le_imgSize (p : Profile) : 2 ≤ Config.imgSize p := by cases p <;> decide

theorem nBlk_pos (p : Profile) : 0 < Config.nBlk p := by cases p <;> decide

theorem blkLen_le (p : Profile) : Config.blkLen p ≤ 256 := by cases p <;> decide

theorem imgSize_le (p : Profile) : Config.imgSize p ≤ 0xF000 := by cases p <;> decide

/-- A read after the sentinel writes (R94). -/
@[simp] theorem readByte_forceSentinel (p : Profile) (s : State) (x : Nat) :
    readByte (forceSentinel p s) x =
      if x = Config.imgSize p - 1 then 0x00#8 else if x = Config.imgSize p - 2 then 0x00#8 else readByte s x := by
  simp [forceSentinel]

end Sys2Proof.Machine
end

