-- ==== Sys2Proof/Laws/Image.lean ====
section
/-! SUPPORT. What IMAGE's loop does (spec/43_image.md R118): one block, and all of them. -/

namespace Sys2Proof.Machine

/-- The frame of block `k` of the image, read from a state whose sentinel bytes are forced and whose CRC is the image's
(R118, step 3). -/
def imageFrame (p : Profile) (s : State) (k : Nat) : List Byte :=
  frameBytes (BitVec.ofNat 16 k) (BitVec.ofNat 16 (Config.blkLen p)) (readSlice s (k * Config.blkLen p) (Config.blkLen p))
    (if k + 1 = Config.nBlk p then some s.crc else none)

theorem block_addr_lt (p : Profile) (k : Nat) (h : k < Config.nBlk p) :
    k * Config.blkLen p + Config.blkLen p ≤ Config.imgSize p := by
  rw [← nBlk_mul_blkLen p, ← Nat.succ_mul]
  exact Nat.mul_le_mul_right _ h

/-- One block of IMAGE: four registers and the trailer pair, and one frame at the end of OUT. -/
theorem imageBlock_eq (p : Profile) (s : State) (k : Nat) (h : k < Config.nBlk p) :
    imageBlock p s k =
      { s with
        idx := BitVec.ofNat 16 k, addr := BitVec.ofNat 16 (k * Config.blkLen p), len := BitVec.ofNat 16 (Config.blkLen p),
        trl := if k + 1 = Config.nBlk p then s.crc else s.trl, ten := decide (k + 1 = Config.nBlk p),
        out := s.out ++ [imageFrame p s k] } := by
  have hk := block_addr_lt p k h
  have hs := imgSize_le p
  have ha : (BitVec.ofNat 16 (k * Config.blkLen p)).toNat = k * Config.blkLen p := by
    rw [BitVec.toNat_ofNat]; exact Nat.mod_eq_of_lt (by omega)
  have hl : (BitVec.ofNat 16 (Config.blkLen p)).toNat = Config.blkLen p := by
    rw [BitVec.toNat_ofNat]; exact Nat.mod_eq_of_lt (by have := blkLen_le p; omega)
  by_cases hn : k + 1 = Config.nBlk p
  · simp [imageBlock, imageFrame, hn, composeFrame, emit, setTrailer, trailerOf, ha, hl, readSlice]
  · simp [imageBlock, imageFrame, hn, composeFrame, emit, clearTrailer, trailerOf, ha, hl, readSlice]

/-- The first `n` blocks of IMAGE. -/
theorem imageBlocks_eq (p : Profile) (s : State) (n : Nat) (h : n + 1 ≤ Config.nBlk p) :
    (List.range (n + 1)).foldl (imageBlock p) s =
      { s with
        idx := BitVec.ofNat 16 n, addr := BitVec.ofNat 16 (n * Config.blkLen p), len := BitVec.ofNat 16 (Config.blkLen p),
        trl := if n + 1 = Config.nBlk p then s.crc else s.trl, ten := decide (n + 1 = Config.nBlk p),
        out := s.out ++ (List.range (n + 1)).map (imageFrame p s) } := by
  induction n with
  | zero =>
    have := imageBlock_eq p s 0 (by omega)
    simpa using this
  | succ n ih =>
    rw [List.range_succ, List.foldl_append, ih (by omega)]
    simp only [List.foldl_cons, List.foldl_nil]
    rw [imageBlock_eq p _ (n + 1) (by omega)]
    have : n + 1 ≠ Config.nBlk p := by omega
    simp [this, imageFrame, readSlice, List.range_succ]

/-- Everything the three steps of IMAGE do (R118, R121). -/
theorem imageSteps_eq (p : Profile) (s : State) :
    imageSteps p s =
      let u := imageChecksum p (forceSentinel p s)
      { u with
        idx := BitVec.ofNat 16 (Config.nBlk p - 1),
        addr := BitVec.ofNat 16 ((Config.nBlk p - 1) * Config.blkLen p),
        len := BitVec.ofNat 16 (Config.blkLen p), trl := u.crc, ten := true,
        out := s.out ++ (List.range (Config.nBlk p)).map (imageFrame p u) } := by
  have hp := nBlk_pos p
  have h1 : Config.nBlk p - 1 + 1 = Config.nBlk p := by omega
  have := imageBlocks_eq p (imageChecksum p (forceSentinel p s)) (Config.nBlk p - 1) (by omega)
  rw [h1] at this
  simpa [imageSteps] using this

end Sys2Proof.Machine
end

