-- ==== Sys2Proof/Laws/PerInstr.lean ====
section
/-! SUPPORT. Per-instruction statements about the syntax. The family OpcodeRow: an instruction's operand fits its form, and its word lies in its row of the opcode table (spec/30_encoding.md R56, R57), the row's match and mask being written out apart from the encoder. -/

namespace Sys2Proof.Laws.OpcodeRow

/-- The instruction is well formed, its word has its opcode, the bits its form does not use are zero, and `word & mask = match`
for its row of R57. -/
def Statement (i : Instr) : Prop :=
  i.WellFormed ∧ opField (encode i) = i.op.code ∧ immField (encode i) &&& i.op.form.mustBeZero = 0#16 ∧
    encode i &&& i.op.maskBits = i.op.matchBits

/-- A masked word, field by field. -/
theorem and_packWord (c d : Byte) (x y : Half) : packWord c x &&& packWord d y = packWord (c &&& d) (x &&& y) :=
  Eq.symm ((packWord_eq_iff ..).mpr ⟨by rw [opField, BitVec.extractLsb'_and]; exact congrArg₂ _ (opField_packWord c x) (opField_packWord d y),
    by rw [immField, BitVec.extractLsb'_and]; exact congrArg₂ _ (immField_packWord c x) (immField_packWord d y)⟩)

/-- The mask column of R57 is the opcode and the bits the form does not use. -/
theorem maskBits_eq (o : Op) : o.maskBits = packWord 0xFF#8 o.form.mustBeZero := by cases o <;> decide

/-- The match column of R57 is the opcode with an immediate of zero. -/
theorem matchBits_eq (o : Op) : o.matchBits = packWord o.code 0#16 := by cases o <;> decide

/-- A row's statement follows from its operand's range and its unused bits. -/
theorem of_fields (i : Instr) (hw : i.WellFormed) (hz : i.imm &&& i.op.form.mustBeZero = 0#16) : Statement i := by
  refine ⟨hw, by simp [encode], by simpa [encode] using hz, ?_⟩
  rw [encode, maskBits_eq, matchBits_eq, and_packWord, hz]
  congr 1
  exact BitVec.and_allOnes

/-- A byte widened to 16 bits has a zero high byte. -/
theorem byte_and_high (v : Byte) : v.setWidth 16 &&& 0xFF00#16 = 0#16 := by
  ext i hi
  by_cases h : i < 8
  · interval_cases i <;> simp
  · simp [BitVec.getLsbD_of_ge v i (by omega)]

theorem nop : Statement .nop := of_fields _ (by decide) (by decide)
theorem reset : Statement .reset := of_fields _ (by decide) (by decide)
theorem cseed (seed : Half) : Statement (.cseed seed) := of_fields _ seed.isLt BitVec.and_zero
theorem cbit (b : Bool) : Statement (.cbit b) := by cases b <;> exact of_fields _ (by decide) (by decide)
theorem cbyte (v : Byte) : Statement (.cbyte v) := of_fields _ v.isLt (byte_and_high v)
theorem cbuf : Statement .cbuf := of_fields _ (by decide) (by decide)
theorem csum (seed : Half) : Statement (.csum seed) := of_fields _ seed.isLt BitVec.and_zero
theorem seta (a : Half) : Statement (.seta a) := of_fields _ a.isLt BitVec.and_zero
theorem setn (n : Half) : Statement (.setn n) := of_fields _ n.isLt BitVec.and_zero
theorem bfill : Statement .bfill := of_fields _ (by decide) (by decide)
theorem bstb (v : Byte) : Statement (.bstb v) := of_fields _ v.isLt (byte_and_high v)
theorem bsent : Statement .bsent := of_fields _ (by decide) (by decide)
theorem seti (i : Half) : Statement (.seti i) := of_fields _ i.isLt BitVec.and_zero
theorem setl (l : Half) : Statement (.setl l) := of_fields _ l.isLt BitVec.and_zero
theorem trli (t : Half) : Statement (.trli t) := of_fields _ t.isLt BitVec.and_zero
theorem trlc : Statement .trlc := of_fields _ (by decide) (by decide)
theorem trln : Statement .trln := of_fields _ (by decide) (by decide)
theorem frame : Statement .frame := of_fields _ (by decide) (by decide)
theorem prof (p : Profile) : Statement (.prof p) := by cases p <;> exact of_fields _ (by decide) (by decide)
theorem image : Statement .image := of_fields _ (by decide) (by decide)

end Sys2Proof.Laws.OpcodeRow
end

