-- ==== Sys2Proof/Laws/Run.lean ====
section
/-! SUPPORT. Sequences of instructions, what one instruction can do in each state, and the step in terms of exec. -/

namespace Sys2Proof

open Sys2Proof.Machine

@[simp] theorem execAll_nil (s : State) : execAll [] s = .next s := rfl

/-- One instruction of a sequence that answers a next state. -/
theorem execAll_cons {i : Instr} {is : List Instr} {s t : State} (h : exec i s = .next t) :
    execAll (i :: is) s = execAll is t := by simp [execAll, h]

/-- A sequence in two parts. -/
theorem execAll_append {is js : List Instr} {s t : State} (h : execAll is s = .next t) :
    execAll (is ++ js) s = execAll js t := by
  induction is generalizing s with
  | nil => cases h; rfl
  | cons i is ih =>
    simp only [execAll, List.cons_append] at h ⊢
    split at h
    · exact ih h
    · rename_i r hr; exact absurd h (by simpa using hr t)

theorem bytesAt_eq_readSlice (s : State) (a n : Nat) : bytesAt s a n = readSlice s a n := (readSlice_eq_map s a n).symm

/-- The meaning of every instruction but RESET is its rule under the common execution rule; said once, so that a proof over
all instructions needs the rules only. -/
def ruleOf : Instr → Rule
  | .nop | .reset => fun s => .ok s
  | .cseed seed => fun s => .ok { s with crc := seed }
  | .cbit b => fun s => .ok { s with crc := crcBit s.crc b }
  | .cbyte v => fun s => .ok { s with crc := crcByte s.crc v }
  | .cbuf => fun s => checksumRange s.crc s
  | .csum seed => checksumRange seed
  | .seta a => fun s => .ok { s with addr := a }
  | .setn n => fun s => .ok { s with cnt := n }
  | .bfill => withProfile (fun p s => fillBytes (Config.imgSize p) Config.erased s)
  | .bstb v => storePostIncrement v
  | .bsent => withProfile forceSentinel
  | .seti i => fun s => .ok { s with idx := i }
  | .setl l => fun s => .ok { s with len := l }
  | .trli t => fun s => .ok (setTrailer t s)
  | .trlc => fun s => .ok (setTrailer s.crc s)
  | .trln => fun s => .ok (clearTrailer s)
  | .frame => frameRule
  | .prof p => fun s => .ok { s with prof := profOf p }
  | .image => withProfile imageSteps

theorem exec_eq_perform (i : Instr) (s : State) (h : i ≠ .reset) : exec i s = perform i (ruleOf i) s := by
  cases i <;> first | rfl | exact absurd rfl h

theorem exec_reset (s : State) : exec .reset s = .next { resetState s with pc := s.pc + 1 } := rfl

/-- An instruction whose rule completes, in a running machine. -/
theorem exec_ok {i : Instr} {s u : State} (hi : i ≠ .reset) (hf : s.fault = 0x00#8) (hr : ruleOf i s = .ok u) :
    exec i s = .next { u with pc := s.pc + 1 } := by rw [exec_eq_perform i s hi, perform_ok i hf hr]

/-- An instruction whose rule raises a fault, in a running machine. -/
theorem exec_error {i : Instr} {s : State} {c : FaultCode} (hi : i ≠ .reset) (hf : s.fault = 0x00#8)
    (hr : ruleOf i s = .error c) : exec i s = .next (raise c (encode i) s) := by
  rw [exec_eq_perform i s hi, perform_error i hf hr]

/-- BFILL with a profile selected. -/
theorem exec_bfill_selected {s : State} {p : Profile} (hf : s.fault = 0x00#8) (hp : selectedProfile s.prof = some p) :
    exec .bfill s = .next { fillBytes (Config.imgSize p) Config.erased s with pc := s.pc + 1 } :=
  exec_ok (by decide) hf (withProfile_ok (k := fun p s => fillBytes (Config.imgSize p) Config.erased s) hp)

/-- BSENT with a profile selected. -/
theorem exec_bsent_selected {s : State} {p : Profile} (hf : s.fault = 0x00#8) (hp : selectedProfile s.prof = some p) :
    exec .bsent s = .next { forceSentinel p s with pc := s.pc + 1 } := exec_ok (by decide) hf (withProfile_ok hp)

/-- IMAGE with a profile selected. -/
theorem exec_image_selected {s : State} {p : Profile} (hf : s.fault = 0x00#8) (hp : selectedProfile s.prof = some p) :
    exec .image s = .next { imageSteps p s with pc := s.pc + 1 } := exec_ok (by decide) hf (withProfile_ok hp)

/-- Everything one instruction can do (R132): RESET resets; any other is not taken while halted, completes by its rule, or
enters its rule's fault. -/
theorem exec_cases {i : Instr} {s t : State} (h : exec i s = .next t) :
    (i = .reset ∧ t = { resetState s with pc := s.pc + 1 }) ∨
    (i ≠ .reset ∧ s.fault ≠ 0x00#8 ∧ t = s) ∨
    (i ≠ .reset ∧ s.fault = 0x00#8 ∧ ∃ u, ruleOf i s = .ok u ∧ t = { u with pc := s.pc + 1 }) ∨
    (i ≠ .reset ∧ s.fault = 0x00#8 ∧ ∃ c, ruleOf i s = .error c ∧ t = raise c (encode i) s) := by
  by_cases hi : i = .reset
  · subst hi; cases h; exact .inl ⟨rfl, rfl⟩
  · rw [exec_eq_perform i s hi] at h
    rcases perform_cases h with ⟨hh, rfl⟩ | ⟨hf, u, hu, rfl⟩ | ⟨hf, c, hc, rfl⟩
    · exact .inr (.inl ⟨hi, hh, rfl⟩)
    · exact .inr (.inr (.inl ⟨hi, hf, u, hu, rfl⟩))
    · exact .inr (.inr (.inr ⟨hi, hf, c, hc, rfl⟩))

/-- No rule touches FAULT, FINFO, pc, the host's list or the epoch; the common execution rule and the reset alone do. -/
theorem ruleOf_keeps {i : Instr} {s u : State} (h : ruleOf i s = .ok u) :
    u.fault = s.fault ∧ u.finfo = s.finfo ∧ u.pc = s.pc ∧ u.cmds = s.cmds ∧ u.bufEpoch = s.bufEpoch := by
  cases i <;> simp only [ruleOf, checksumRange, addrRange, withProfile, storePostIncrement, frameRule] at h <;>
    (try split at h) <;> (try split at h) <;> simp_all <;> (try (subst h; simp_all))
  all_goals (subst h; simp [imageSteps_eq])

/-- The numbers of a selected profile are those of `Config`. -/
theorem profileSizes_selected {q : BitVec 2} {S L N : Nat} (h : ProfileSizes q S L N) :
    ∃ p, selectedProfile q = some p ∧ S = Config.imgSize p ∧ L = Config.blkLen p ∧ N = Config.nBlk p := by
  rcases h with ⟨rfl, rfl, rfl, rfl⟩ | ⟨rfl, rfl, rfl, rfl⟩
  · exact ⟨.p0, by decide, rfl, rfl, rfl⟩
  · exact ⟨.p1, by decide, rfl, rfl, rfl⟩

/-- Everything a step can do: no word, a decoded instruction, an illegal word. -/
theorem step_cases {s t : State} (h : step s = .next t) :
    (fetch s = none ∧ t = s) ∨ (∃ w i, fetch s = some w ∧ decode w = .ok i ∧ exec i s = .next t) ∨
    (∃ w e, fetch s = some w ∧ decode w = .error e ∧ illegalWord w s = .next t) := by
  unfold step at h
  split at h
  · rename_i hf; cases h; exact .inl ⟨hf, rfl⟩
  · rename_i w hf
    split at h
    · rename_i i hd; exact .inr (.inl ⟨w, i, hf, hd, h⟩)
    · rename_i e hd; exact .inr (.inr ⟨w, e, hf, hd, h⟩)

end Sys2Proof
end

