-- ==== Sys2Proof/Tests/Slice0.lean ====
section
/-! SUPPORT. The model's own tests. Expected values are those of spec/95_test_vectors.md (the vector's id stands in the docstring) or are worked by hand from the rule cited. Then, for every statement with hypotheses, a witness that they can be met, one for each clause, at the edges of its ranges. -/

namespace Sys2Proof.Tests

open Sys2Proof Sys2Proof.Machine

/-! ### Helpers -/

/-- The reset state with a host's list and nothing executed yet. -/
def running (ws : List Cmd) : State := startRun ws State.reset

/-- A running machine with the bytes 31 32 33 34 ("1234") at 0x0200. -/
def digits : State := { State.reset with buf := [(0x0200, 0x31#8), (0x0201, 0x32#8), (0x0202, 0x33#8), (0x0203, 0x34#8)] }

/-- A running machine ready to compose the block of vector M3. -/
def block3 : State :=
  { State.reset with
    buf := [(0x10, 0xDE#8), (0x11, 0xAD#8), (0x12, 0xBE#8), (0x13, 0xEF#8), (0x14, 0x42#8)], addr := 0x0010#16, idx := 3#16,
    len := 5#16 }

/-- A running machine with a profile selected. -/
def selected (p : Profile) : State := { State.reset with prof := profOf p }

/-- A running machine under P0 with a byte inside the image and one outside it. -/
def erasable : State := { selected .p0 with buf := [(0x6FFF, 0x12#8), (0x7000, 0x55#8)] }

/-- The end state of vector F1: halted by a LENGTH fault at index 2. -/
def haltedF1 : State :=
  { running [0x310801#24, 0x300007#24, 0x350000#24, 0x300009#24] with
    len := 0x0801#16, idx := 7#16, pc := 2, fault := 0x02#8, finfo := 0x350000#24 }

/-- The next state of an outcome, if it is one. -/
def after : Result → Option State
  | .next t => some t
  | _ => none

/-! ### Well-formedness -/

/-- R61: an operand missing. -/
theorem test_operand_missing_is_refused :
    (Line.mk .seta none).operandPresent = false ∧ (Line.mk .seta none).wellFormed = false ∧
    assembleLine ⟨.seta, none⟩ = .error .operandCount := by decide

/-- R61: an operand in excess. -/
theorem test_operand_in_excess_is_refused :
    (Line.mk .nop (some 0)).operandPresent = false ∧ (Line.mk .nop (some 0)).wellFormed = false ∧
    assembleLine ⟨.nop, some 0⟩ = .error .operandCount := by decide

/-- R61: an operand out of range, one above the largest of each form. -/
theorem test_operand_out_of_range_is_refused :
    (Line.mk .cbit (some 2)).operandInRange = false ∧ (Line.mk .bstb (some 256)).operandInRange = false ∧
    (Line.mk .seta (some 65536)).operandInRange = false ∧ (Line.mk .prof (some 2)).wellFormed = false ∧
    assembleLine ⟨.cbyte, some 256⟩ = .error .operandOutOfRange := by decide

/-- R61: the largest operand of each form assembles. -/
theorem test_largest_operands_assemble :
    (Line.mk .cbit (some 1)).wellFormed = true ∧ assembleLine ⟨.bstb, some 255⟩ = .ok (.bstb 0xFF#8) ∧
    assembleLine ⟨.seta, some 65535⟩ = .ok (.seta 0xFFFF#16) := by decide

/-! ### Decoding: words written out bit by bit from R55 to R57 -/

theorem test_decode_system :
    decode 0b000000000000000000000000#24 = .ok .nop ∧ decode 0b000000010000000000000000#24 = .ok .reset := by decide

theorem test_decode_checksum :
    decode 0b000100001111111111111111#24 = .ok (.cseed 0xFFFF#16) ∧ decode 0b000100010000000000000001#24 = .ok (.cbit true) ∧
    decode 0b000100100000000000110001#24 = .ok (.cbyte 0x31#8) ∧ decode 0b000100110000000000000000#24 = .ok .cbuf ∧
    decode 0b000101000001110100001111#24 = .ok (.csum 0x1D0F#16) := by decide

theorem test_decode_buffer :
    decode 0b001000001110111111111111#24 = .ok (.seta 0xEFFF#16) ∧ decode 0b001000010111000000000000#24 = .ok (.setn 0x7000#16) ∧
    decode 0b001000100000000000000000#24 = .ok .bfill ∧ decode 0b001000110000000010101011#24 = .ok (.bstb 0xAB#8) ∧
    decode 0b001001000000000000000000#24 = .ok .bsent := by decide

theorem test_decode_frame :
    decode 0b001100000000000011011111#24 = .ok (.seti 0x00DF#16) ∧ decode 0b001100010000100000000000#24 = .ok (.setl 0x0800#16) ∧
    decode 0b001100101010000110110010#24 = .ok (.trli 0xA1B2#16) ∧ decode 0b001100110000000000000000#24 = .ok .trlc ∧
    decode 0b001101000000000000000000#24 = .ok .trln ∧ decode 0b001101010000000000000000#24 = .ok .frame := by decide

theorem test_decode_image :
    decode 0b010000000000000000000000#24 = .ok (.prof .p0) ∧ decode 0b010000000000000000000001#24 = .ok (.prof .p1) ∧
    decode 0b010000010000000000000000#24 = .ok .image := by decide

/-- R58: the rule's own examples, and F8. -/
theorem test_decode_rejects :
    decode 0x990000#24 = .error .unassignedOpcode ∧ decode 0x020000#24 = .error .unassignedOpcode ∧
    decode 0x130001#24 = .error .mustBeZeroBitSet ∧ decode 0x230100#24 = .error .mustBeZeroBitSet ∧
    decode 0x400002#24 = .error .mustBeZeroBitSet ∧ decode 0x410001#24 = .error .mustBeZeroBitSet := by decide

/-- The words of program P2 for BLOCK, from its operands. -/
theorem test_encode :
    (Pseudo.block 3#16 0x0010#16 5#16).expand.map encode =
      [0x300003#24, 0x200010#24, 0x310005#24, 0x340000#24, 0x350000#24] := by decide

theorem test_table_word :
    decodeTableWord 24 0x2300AB = some (.bstb 0xAB#8) ∧ decodeTableWord 24 0x990000 = none := by decide

/-- The words of program P1, from its text. -/
theorem test_assemble_p1 :
    assemble ["LOAD 0x0100, 0x31, 0x32, 0x33, 0x34", "CHECKSUM 0x0100, 4, 0xFFFF ; comment"] =
      .ok [0x200100#24, 0x230031#24, 0x230032#24, 0x230033#24, 0x230034#24, 0x200100#24, 0x210004#24, 0x14FFFF#24] := by
  decide +kernel

theorem test_assemble_errors :
    assembleText "SETA".toList = .error .operandCount ∧ assembleText "FOO".toList = .error .unknownMnemonic ∧
    assembleText "SETA 65536".toList = .error .operandOutOfRange ∧ assembleText "BSTB 0xG".toList = .error .badNumber ∧
    assembleText "SETA 0x".toList = .error .badNumber ∧ assembleText "SETA 1A".toList = .error .badNumber := by
  decide +kernel

/-- R61: decimal without a prefix, hexadecimal after `0x`. -/
theorem test_written_numbers :
    number? "61440".toList = some 0xF000 ∧ number? "0xF000".toList = some 61440 ∧ number? "0xEf".toList = some 239 ∧
    number? "0".toList = some 0 := by decide +kernel

/-! ### The checksum functions (section 2) -/

/-- Section 2.1, the table of `crc_bit`. -/
theorem test_crcBit_table :
    crcBit 0x0000#16 true = 0x0001#16 ∧ crcBit 0x8000#16 false = 0x1021#16 ∧ crcBit 0x8000#16 true = 0x1020#16 ∧
    crcBit 0x7FFF#16 true = 0xFFFF#16 ∧ crcBit 0x0810#16 true = 0x1021#16 ∧ crcBit 0x8810#16 true = 0x0000#16 := by decide

/-- K6 and the "1234" of section 1.3. -/
theorem test_crcBuf_1234 :
    crcByte 0xFFFF#16 0x31#8 = 0xE1C1#16 ∧ checksum [0x31#8, 0x32#8, 0x33#8, 0x34#8] 0xFFFF#16 = 0x9741#16 := by
  decide +kernel

/-! ### Frames -/

/-- The frame of M5, read back. -/
theorem test_readFrame :
    readFrame [0x00#8, 0x04#8, 0x00#8, 0x05#8, 0xDE#8, 0xAD#8, 0xBE#8, 0xEF#8, 0x42#8, 0xB2#8, 0xA1#8] =
      some ⟨4#16, 5#16, [0xDE#8, 0xAD#8, 0xBE#8, 0xEF#8, 0x42#8], some 0xA1B2#16⟩ := by decide

/-- A list shorter than its length field says is no frame, nor is one with a single byte after the payload. -/
theorem test_readFrame_none :
    readFrame [0x00#8, 0x00#8, 0x00#8, 0x02#8, 0xFF#8] = none ∧
    readFrame [0x00#8, 0x00#8, 0x00#8, 0x00#8, 0xFF#8] = none := by decide

/-! ### One step of each command -/

/-- S2. -/
theorem test_nop : step (running [0x000000#24]) = .next { running [0x000000#24] with pc := 1 } := rfl

/-- S3, its last step: all registers at reset values, pc and OUT not reset, BUF unspecified anew. -/
theorem test_reset :
    exec .reset { block3 with crc := 0#16, prof := 0b11#2, trl := 9#16, ten := true, pc := 4, out := [[]] } =
      .next { State.reset with pc := 5, out := [[]], bufEpoch := 1 } := rfl

/-- The recovery of P6, run 2: RESET is taken while halted. -/
theorem test_reset_recovers :
    step (startRun [0x010000#24, 0x300007#24] haltedF1) =
      .next { State.reset with cmds := [0x010000#24, 0x300007#24], pc := 1, bufEpoch := 1 } := rfl

theorem test_cseed : exec (.cseed 0x2398#16) State.reset = .next { State.reset with crc := 0x2398#16, pc := 1 } := rfl

/-- Section 2.1: `crc_bit(0xFFFF, 1)`. -/
theorem test_cbit : exec (.cbit true) State.reset = .next { State.reset with crc := 0xEFDE#16, pc := 1 } := rfl

/-- K6. -/
theorem test_cbyte : exec (.cbyte 0x31#8) State.reset = .next { State.reset with crc := 0xE1C1#16, pc := 1 } := rfl

/-- K11, its last step. -/
theorem test_cbuf :
    after (exec .cbuf { digits with crc := 0x2C3D#16, addr := 0x0202#16, cnt := 2#16 }) =
      some { digits with crc := 0x9741#16, addr := 0x0202#16, cnt := 2#16, pc := 1 } := by decide +kernel

/-- K13. -/
theorem test_cbuf_bounds :
    exec .cbuf { State.reset with addr := 0xF001#16, pc := 1 } =
      .next { State.reset with addr := 0xF001#16, pc := 1, fault := 0x03#8, finfo := 0x130000#24 } := rfl

/-- K11, the CSUM. -/
theorem test_csum :
    after (exec (.csum 0xFFFF#16) { digits with addr := 0x0200#16, cnt := 2#16 }) =
      some { digits with crc := 0x2C3D#16, addr := 0x0200#16, cnt := 2#16, pc := 1 } := by decide +kernel

/-- K14: BOUNDS, CRC not reloaded. -/
theorem test_csum_bounds :
    exec (.csum 0xFFFF#16) { State.reset with crc := 0x1111#16, addr := 0x8000#16, cnt := 0x7001#16, pc := 3 } =
      .next { State.reset with
        crc := 0x1111#16, addr := 0x8000#16, cnt := 0x7001#16, pc := 3, fault := 0x03#8, finfo := 0x14FFFF#24 } := rfl

theorem test_seta : exec (.seta 0xFFFF#16) State.reset = .next { State.reset with addr := 0xFFFF#16, pc := 1 } := rfl

/-- B12. -/
theorem test_setn : exec (.setn 0xFFFF#16) State.reset = .next { State.reset with cnt := 0xFFFF#16, pc := 1 } := rfl

/-- B6. -/
theorem test_bfill_profile :
    exec .bfill State.reset = .next { State.reset with fault := 0x04#8, finfo := 0x220000#24 } := rfl

/-- B8 and B11: under P0 the image is erased and the byte at 0x7000 stays. -/
theorem test_bfill :
    ∃ t, exec .bfill erasable = .next t ∧
      readByte t 0 = 0xFF#8 ∧ readByte t 0x6FFF = 0xFF#8 ∧ readByte t 0x7000 = 0x55#8 := by
  have e (x : Nat) : readByte { fillBytes 0x7000 0xFF#8 erasable with pc := 1 } x =
      if x < 0x7000 then 0xFF#8 else readByte erasable x := readByte_fillBytes erasable 0x7000 x 0xFF#8
  exact ⟨_, exec_bfill_selected (s := erasable) (p := .p0) rfl (by decide), (e 0).trans (if_pos (by decide)),
    (e 0x6FFF).trans (if_pos (by decide)), (e 0x7000).trans ((if_neg (by decide)).trans (by decide))⟩

/-- B2: the last byte of BUF, ADDR steps to 0xF000. -/
theorem test_bstb :
    exec (.bstb 0x01#8) { State.reset with addr := 0xEFFF#16, pc := 1 } =
      .next { State.reset with addr := 0xF000#16, buf := [(0xEFFF, 0x01#8)], pc := 2 } := rfl

/-- B4. -/
theorem test_bstb_bounds :
    exec (.bstb 0x01#8) { State.reset with addr := 0xF000#16, pc := 1 } =
      .next { State.reset with addr := 0xF000#16, pc := 1, fault := 0x03#8, finfo := 0x230001#24 } := rfl

/-- B10, its last step: data at the sentinel addresses is lost, the byte before them stays. -/
theorem test_bsent :
    exec .bsent { selected .p0 with buf := [(0x6FFD, 0xFF#8), (0x6FFE, 0x12#8), (0x6FFF, 0x34#8)] } =
      .next { selected .p0 with buf := [(0x6FFD, 0xFF#8), (0x6FFE, 0x00#8), (0x6FFF, 0x00#8)], pc := 1 } := rfl

/-- B7. -/
theorem test_bsent_profile :
    exec .bsent State.reset = .next { State.reset with fault := 0x04#8, finfo := 0x240000#24 } := rfl

theorem test_seti : exec (.seti 0x0102#16) State.reset = .next { State.reset with idx := 0x0102#16, pc := 1 } := rfl

/-- F1, its first step: a length above 2048 is loaded without a fault. -/
theorem test_setl : exec (.setl 0x0801#16) State.reset = .next { State.reset with len := 0x0801#16, pc := 1 } := rfl

/-- M2, the TRLI. -/
theorem test_trli : exec (.trli 0x1234#16) State.reset = .next { State.reset with trl := 0x1234#16, ten := true, pc := 1 } := rfl

/-- M7, the TRLC. -/
theorem test_trlc :
    exec .trlc { State.reset with crc := 0x2398#16 } =
      .next { State.reset with crc := 0x2398#16, trl := 0x2398#16, ten := true, pc := 1 } := rfl

/-- M6, the TRLN: the trailer value is kept. -/
theorem test_trln :
    exec .trln { State.reset with trl := 0xA1B2#16, ten := true } =
      .next { State.reset with trl := 0xA1B2#16, ten := false, pc := 1 } := rfl

/-- M5, its last step: header high byte first, trailer low byte first. -/
theorem test_frame :
    exec .frame { block3 with idx := 4#16, trl := 0xA1B2#16, ten := true } =
      .next { block3 with
        idx := 4#16, trl := 0xA1B2#16, ten := true, pc := 1,
        out := [[0x00#8, 0x04#8, 0x00#8, 0x05#8, 0xDE#8, 0xAD#8, 0xBE#8, 0xEF#8, 0x42#8, 0xB2#8, 0xA1#8]] } := rfl

/-- F2: both checks fail, LENGTH is reported. -/
theorem test_frame_length_first :
    exec .frame { State.reset with len := 0x0BB8#16, addr := 0xFFFF#16, pc := 2 } =
      .next { State.reset with len := 0x0BB8#16, addr := 0xFFFF#16, pc := 2, fault := 0x02#8, finfo := 0x350000#24 } := rfl

/-- I1 and I2. -/
theorem test_prof :
    exec (.prof .p0) State.reset = .next { State.reset with prof := 0b10#2, pc := 1 } ∧
    exec (.prof .p1) State.reset = .next { State.reset with prof := 0b11#2, pc := 1 } := ⟨rfl, rfl⟩

/-- I4. -/
theorem test_image_profile :
    exec .image State.reset = .next { State.reset with fault := 0x04#8, finfo := 0x410000#24 } := rfl

/-- I5, the registers IMAGE leaves under P0 and the number of its frames. -/
theorem test_image :
    ∃ t, exec .image (selected .p0) = .next t ∧ t.addr = 0x6F80#16 ∧ t.cnt = 0x7000#16 ∧ t.idx = 0x00DF#16 ∧
      t.len = 0x0080#16 ∧ t.ten = true ∧ t.trl = t.crc ∧ t.out.length = 224 ∧ t.pc = 1 := by
  refine ⟨_, exec_image_selected (p := .p0) rfl (by decide), ?_⟩
  rw [imageSteps_eq]
  exact ⟨by decide, by decide, by decide, by decide, rfl, rfl, by simp [selected, State.reset, Config.nBlk, Config.imgSize, Config.blkLen], rfl⟩

/-- F4: an illegal word. -/
theorem test_illegal :
    step (running [0x130001#24]) = .next { running [0x130001#24] with fault := 0x01#8, finfo := 0x130001#24 } := rfl

/-- F10: a halted machine does not take NOP, SETI 1 or the illegal word 010001. -/
theorem test_halted_takes_nothing :
    step (startRun [0x000000#24] haltedF1) = .next (startRun [0x000000#24] haltedF1) ∧
    step (startRun [0x300001#24] haltedF1) = .next (startRun [0x300001#24] haltedF1) ∧
    step (startRun [0x010001#24] haltedF1) = .next (startRun [0x010001#24] haltedF1) := ⟨rfl, rfl, rfl⟩

/-- S1: the empty list has completed, and its empty OUT is no image (R152). -/
theorem test_empty_list : Completed (running []) ∧ ¬ ProducedImage (running []) ∧ step (running []) = .next (running []) :=
  ⟨by decide, by decide, rfl⟩

/-- What notes/assumptions/12.md says: a recovery run of RESET alone completes, and the frame the faulted run had emitted
counts. -/
theorem test_recovery_counts_kept_frames :
    ∃ t, step (startRun [0x010000#24] { haltedF1 with out := [[0x00#8, 0x00#8, 0x00#8, 0x00#8]] }) = .next t ∧
      ProducedImage t := ⟨_, rfl, by decide⟩

/-- The host's word is the first one to run after reset. -/
theorem test_withFetchWord :
    step (State.reset.withFetchWord 24 0x2300AB) =
      .next { State.reset with cmds := [0x2300AB#24], addr := 1#16, buf := [(0, 0xAB#8)], pc := 1 } := rfl

/-! ### Witnesses: the hypotheses of each statement, met by a state and operands written out -/

/-- EveryCommandHasExactlyOneWord, its first clause. -/
theorem test_witness_one_word : decode 0x110001#24 = .ok (.cbit true) ∧ decode 0x110001#24 = .ok (.cbit true) := by decide

/-- WordsMatchTheOpcodeMap: a word of each operand form, and a word beside its row. -/
theorem test_witness_opcode_map :
    decode 0x13FFFF#24 ≠ .ok .cbuf ∧ 0x13FFFF#24 &&& Op.cbuf.maskBits ≠ Op.cbuf.matchBits ∧
    decode 0x400001#24 = .ok (.prof .p1) ∧ decode 0x2300FF#24 = .ok (.bstb 0xFF#8) ∧
    decode 0x20FFFF#24 = .ok (.seta 0xFFFF#16) := by decide

theorem not_ok_of_error {w : Cmd} {e : DecodeError} (h : decode w = .error e) (i : Instr) : decode w ≠ .ok i := by simp [h]

/-- IllegalWordsAreRejected, its last clause; WordDecodesOrRaisesIllegal, its second case; StepFollowsTheExecutionRule, its
third branch. -/
theorem test_witness_illegal :
    (running [0x990000#24]).fault = 0x00#8 ∧ fetch (running [0x990000#24]) = some 0x990000#24 ∧
    ∀ i, decode 0x990000#24 ≠ .ok i :=
  ⟨rfl, rfl, not_ok_of_error (e := .unassignedOpcode) (by decide)⟩

/-- WrittenCommandsAssemble. -/
theorem test_witness_lines :
    (Line.mk .seta (some 0xFFFF)).wellFormed = true ∧ (Line.mk .nop none).wellFormed = true ∧
    (Line.mk .seta (some 0x10000)).wellFormed = false ∧ (Line.mk .seta none).wellFormed = false := by decide

/-- ChecksumIsLinear. -/
theorem test_witness_linear : [0x31#8, 0x32#8].length = [0x00#8, 0xFF#8].length := rfl

/-- FrameLayoutByOffset and ReadFrameInvertsFrame: an empty payload and one of two bytes, with and without a trailer. -/
theorem test_witness_frames :
    ([] : List Byte).length = (0#16).toNat ∧ [0xDE#8, 0xAD#8].length = (2#16).toNat ∧
    frameBytes 0xFFFF#16 0#16 [] none = [0xFF#8, 0xFF#8, 0x00#8, 0x00#8] ∧
    frameBytes 1#16 2#16 [0xDE#8, 0xAD#8] (some 0x1234#16) =
      [0x00#8, 0x01#8, 0x00#8, 0x02#8, 0xDE#8, 0xAD#8, 0x34#8, 0x12#8] := by decide

/-- NopOnlyAdvancesPc, RegisterLoads, CbitIsOneBitStep, CbyteIsEightBitSteps, TrailerCommands and ProfSelectsTheProfile: a
machine that runs, whatever its registers. -/
theorem test_witness_running : State.reset.fault = 0x00#8 ∧ block3.fault = 0x00#8 := ⟨rfl, rfl⟩

/-- ResetReturnsToTheResetState, its third clause, running and halted. -/
theorem test_witness_reset_word :
    fetch (running [0x010001#24]) = some 0x010001#24 ∧ (running [0x010001#24]).fault = 0x00#8 ∧
    fetch (startRun [0x010001#24] haltedF1) = some 0x010001#24 ∧ (startRun [0x010001#24] haltedF1).fault ≠ 0x00#8 :=
  ⟨rfl, rfl, rfl, by decide⟩

/-- A running machine with a checksum range in its registers. -/
def ranged (a n : Half) : State := { State.reset with addr := a, cnt := n }

/-- CbufContinuesTheChecksum and CsumChecksumsFromTheSeed: the last range inside BUF, an empty one at its end, the first
outside; two adjacent ranges that fill BUF. -/
theorem test_witness_ranges :
    (ranged 0x8000#16 0x7000#16).fault = 0x00#8 ∧
    (ranged 0x8000#16 0x7000#16).addr.toNat + (ranged 0x8000#16 0x7000#16).cnt.toNat ≤ 0xF000 ∧
    (ranged 0xF000#16 0#16).addr.toNat + (ranged 0xF000#16 0#16).cnt.toNat ≤ 0xF000 ∧
    0xF000 < (ranged 0x8000#16 0x7001#16).addr.toNat + (ranged 0x8000#16 0x7001#16).cnt.toNat ∧
    0xF000 < (ranged 0xF001#16 0#16).addr.toNat + (ranged 0xF001#16 0#16).cnt.toNat ∧
    (0#16).toNat + (0x7800#16).toNat + (0x7800#16).toNat ≤ 0xF000 := by decide

/-- BfillErasesTheImage, BsentForcesTheSentinelBytes, ImageFinalisesTheImage, ImageFramesAreTheBlocksOfTheImage,
ImageAgainEmitsTheSameFrames and ImageEqualsItsExpansion: each profile; and no profile. -/
theorem test_witness_profiles :
    (selected .p0).fault = 0x00#8 ∧ ProfileSizes (selected .p0).prof 0x7000 128 224 ∧
    (selected .p1).fault = 0x00#8 ∧ ProfileSizes (selected .p1).prof 0xF000 256 240 ∧
    selectedProfile (selected .p0).prof = some .p0 ∧ selectedProfile (selected .p1).prof = some .p1 ∧
    State.reset.fault = 0x00#8 ∧ State.reset.prof.getLsbD 1 = false := by decide

/-- BstbStoresAndStepsTheAddress: the last address of BUF, and the first beyond it. -/
theorem test_witness_bstb :
    (ranged 0xEFFF#16 0#16).fault = 0x00#8 ∧ (ranged 0xEFFF#16 0#16).addr.toNat < 0xF000 ∧
    0xF000 ≤ (ranged 0xF000#16 0#16).addr.toNat := by decide

/-- ImageIsReconstructedFromItsRecords: the records of program P3, the second over the sentinel addresses, the last of the
image; and a record that ends the larger image. -/
theorem test_witness_records :
    (∀ r ∈ [Record.mk 0x0000#16 0x0C#8 [0x94#8, 0x34#8, 0x00#8], Record.mk 0x6FFE#16 0x12#8 [0x34#8]],
      r.address.toNat + r.bytes.length ≤ Config.imgSize .p0) ∧
    (∀ r ∈ [Record.mk 0xEFFF#16 0x12#8 []], r.address.toNat + r.bytes.length ≤ Config.imgSize .p1) := by
  constructor <;> intro r hr <;> simp at hr <;> rcases hr with rfl | rfl <;> decide

/-- A running machine with a Block in its registers. -/
def composing (a l : Half) : State := { State.reset with addr := a, len := l }

/-- FrameEmitsTheBlockInTheRegisters: the longest Block at the end of BUF; a length too long; a Block one byte too far. -/
theorem test_witness_frame :
    (composing 0xE800#16 2048#16).fault = 0x00#8 ∧ (composing 0xE800#16 2048#16).len.toNat ≤ 2048 ∧
    (composing 0xE800#16 2048#16).addr.toNat + (composing 0xE800#16 2048#16).len.toNat ≤ 0xF000 ∧
    2048 < (composing 0#16 2049#16).len.toNat ∧
    (composing 0xE801#16 2048#16).len.toNat ≤ 2048 ∧
    0xF000 < (composing 0xE801#16 2048#16).addr.toNat + (composing 0xE801#16 2048#16).len.toNat := by decide

/-- CustomPathEmitsItsBlocksInOrder: the highest address, a Block of the greatest length and one of a single byte. -/
theorem test_witness_custom_path :
    State.reset.fault = 0x00#8 ∧ (0xE800#16).toNat + 2048 ≤ 0xF000 ∧
    [((0xDE#8 : Byte), List.replicate 2047 (0#8 : Byte)), (0xAA#8, [])].length ≤ 65536 ∧
    ∀ b ∈ [((0xDE#8 : Byte), List.replicate 2047 (0#8 : Byte)), (0xAA#8, [])], b.2.length + 1 ≤ 2048 := by
  refine ⟨rfl, by decide, Nat.le_of_ble_eq_true rfl, ?_⟩
  intro b hb
  simp only [List.mem_cons, List.not_mem_nil, or_false] at hb
  rcases hb with rfl | rfl
  · rw [List.length_replicate]
  · decide

/-- PseudoInstructionsDoWhatTheyStandFor: CHECKSUM and LOAD up to the end of BUF, BLOCK and BLOCKT at the largest length. -/
theorem test_witness_pseudo :
    State.reset.fault = 0x00#8 ∧ (0x8000#16).toNat + (0x7000#16).toNat ≤ 0xF000 ∧
    (0xEFFE#16).toNat + [0x02#8].length + 1 ≤ 0xF000 ∧ (2048#16).toNat ≤ 2048 ∧
    (0xE800#16).toNat + (2048#16).toNat ≤ 0xF000 := by decide

/-- ProfSelectsTheProfile, its last clause. -/
theorem test_witness_profile_lost :
    exec .reset (selected .p1) = .next { State.reset with pc := 1, bufEpoch := 1 } ∧
    (selected .p1).prof.getLsbD 1 = true ∧ State.reset.prof.getLsbD 1 = false := ⟨rfl, rfl, rfl⟩

/-- ImageLeavesTheRegistersOfItsExpansion, under each profile. -/
theorem test_witness_image_runs :
    ((selected .p0).prof = 0b10#2 ∧ (selected .p0).prof.getLsbD 1 = true ∧ ∃ t, exec .image (selected .p0) = .next t) ∧
    ((selected .p1).prof = 0b11#2 ∧ (selected .p1).prof.getLsbD 1 = true ∧ ∃ t, exec .image (selected .p1) = .next t) :=
  ⟨⟨by decide, by decide, _, exec_image_selected (p := .p0) rfl (by decide)⟩,
   ⟨by decide, by decide, _, exec_image_selected (p := .p1) rfl (by decide)⟩⟩

/-- ImageDependsOnlyOnTheImage: two machines that differ in a sentinel byte and outside the image. -/
theorem test_witness_image_alike :
    let s := selected .p0
    let s' := writeByte 0x7000 0x55#8 (writeByte 0x6FFE 0x12#8 { selected .p0 with out := [[]] })
    s.fault = 0x00#8 ∧ s'.fault = 0x00#8 ∧ s'.prof = s.prof ∧ ProfileSizes s.prof 0x7000 128 224 ∧
    (∀ a, a + 2 < 0x7000 → readByte s' a = readByte s a) ∧ (∃ t, exec .image s = .next t) ∧ ∃ t', exec .image s' = .next t' := by
  refine ⟨rfl, rfl, rfl, by decide, ?_, ⟨_, exec_image_selected (p := .p0) rfl (by decide)⟩,
    ⟨_, exec_image_selected (p := .p0) rfl (by decide)⟩⟩
  intro a ha
  rw [readByte_writeByte, if_neg (by omega), readByte_writeByte, if_neg (by omega)]
  rfl

/-- A machine about to fault: LENGTH. -/
def faulting : State := { running [0x350000#24] with len := 0x0801#16 }

/-- FaultEntryChangesOnlyFaultAndFinfo. -/
theorem test_witness_fault_entry :
    step faulting = .next { faulting with fault := 0x02#8, finfo := 0x350000#24 } ∧ faulting.fault = 0x00#8 := ⟨rfl, rfl⟩

/-- WhichCommandRaisesWhichFault: an instruction that raises each fault, and one that raises none. -/
theorem test_witness_each_fault :
    exec .frame faulting = .next { faulting with fault := 0x02#8, finfo := 0x350000#24 } ∧
    exec (.bstb 1#8) (ranged 0xF000#16 0#16) = .next { ranged 0xF000#16 0#16 with fault := 0x03#8, finfo := 0x230001#24 } ∧
    exec .bfill State.reset = .next { State.reset with fault := 0x04#8, finfo := 0x220000#24 } ∧
    exec .nop State.reset = .next { State.reset with pc := 1 } := ⟨rfl, rfl, rfl, rfl⟩

/-- StepRunsTheDecodedInstruction, WordDecodesOrRaisesIllegal (its first case) and StepFollowsTheExecutionRule (its last
branch, completed and faulting). -/
theorem test_witness_step :
    (running [0x110001#24]).fault = 0x00#8 ∧ fetch (running [0x110001#24]) = some 0x110001#24 ∧
    decode 0x110001#24 = .ok (.cbit true) ∧
    step (running [0x110001#24]) = .next { running [0x110001#24] with crc := 0xEFDE#16, pc := 1 } ∧
    fetch faulting = some 0x350000#24 ∧ decode 0x350000#24 = .ok .frame :=
  ⟨rfl, rfl, by decide, rfl, rfl, by decide⟩

/-- HaltedMachineTakesOnlyTheResetWord, FaultIsFinalForItsRun, RecoveryRunBeginsWithReset and the first two branches of
StepFollowsTheExecutionRule: halted at another word, at RESET, and at no word. -/
theorem test_witness_halted :
    haltedF1.fault ≠ 0x00#8 ∧ fetch haltedF1 = some 0x350000#24 ∧ fetch haltedF1 ≠ some 0x010000#24 ∧
    (startRun [0x010000#24] haltedF1).fault ≠ 0x00#8 ∧ fetch (startRun [0x010000#24] haltedF1) = some 0x010000#24 ∧
    fetch (startRun [] haltedF1) = none ∧ exec .nop haltedF1 = .next haltedF1 :=
  ⟨by decide, rfl, by decide, by decide, rfl, rfl, rfl⟩

/-- NoWordNoChange: the empty list, and the end of a list of one word. -/
theorem test_witness_no_word :
    (running []).cmds.length ≤ (running []).pc ∧
    ({ running [0x000000#24] with pc := 1 } : State).cmds.length ≤ ({ running [0x000000#24] with pc := 1 } : State).pc := by
  decide

/-- StepKeepsInv: a running machine whose next command is FRAME, and one whose next word is illegal. -/
theorem test_witness_inv :
    Inv (running [0x350000#24]) ∧
    step (running [0x350000#24]) =
      .next { running [0x350000#24] with out := [[0x00#8, 0x00#8, 0x00#8, 0x00#8]], pc := 1 } ∧
    Inv (running [0x990000#24]) ∧
    step (running [0x990000#24]) = .next { running [0x990000#24] with fault := 0x01#8, finfo := 0x990000#24 } :=
  ⟨⟨by decide, by decide, .inl ⟨rfl, rfl⟩, by decide, by decide, by decide⟩, rfl,
   ⟨by decide, by decide, .inl ⟨rfl, rfl⟩, by decide, by decide, by decide⟩, rfl⟩

/-- Inv says something: a frame of three bytes, PROF = 0b01 and a byte listed outside BUF each break it. -/
theorem test_inv_excludes :
    ¬ FrameShaped [0x00#8, 0x00#8, 0x00#8] ∧ ¬ Inv { State.reset with prof := 0b01#2 } ∧
    ¬ Inv { State.reset with buf := [(0xF000, 0x00#8)] } :=
  ⟨by decide, fun h => h.profLegal rfl, fun h => absurd h.bufCanonical (by decide)⟩

/-- OutOnlyGrowsAndIsNeverRead, PcAdvancesExactlyOnCompletion, StateChangesOnlyByItsWriters and CommandListNeverChanges: a
step that emits a frame, one that enters a fault, one that stores a byte and one that is not taken. -/
theorem test_witness_changes :
    exec .frame State.reset = .next { State.reset with out := [[0x00#8, 0x00#8, 0x00#8, 0x00#8]], pc := 1 } ∧
    exec .frame faulting = .next { faulting with fault := 0x02#8, finfo := 0x350000#24 } ∧
    exec (.bstb 7#8) State.reset = .next { State.reset with addr := 1#16, buf := [(0, 7#8)], pc := 1 } ∧
    exec .frame haltedF1 = .next haltedF1 ∧
    step faulting = .next { faulting with fault := 0x02#8, finfo := 0x350000#24 } := ⟨rfl, rfl, rfl, rfl, rfl⟩

/-- OnlyImageCommandsReadProf. -/
theorem test_witness_prof_unread :
    (Instr.frame).op ∉ [Op.bfill, .bsent, .image, .prof, .reset] ∧
    exec .frame State.reset = .next { State.reset with out := [[0x00#8, 0x00#8, 0x00#8, 0x00#8]], pc := 1 } :=
  ⟨by decide, rfl⟩

/-- TrailerValueIsNotReadWithoutTen: completed, and faulting. -/
theorem test_witness_no_trailer :
    State.reset.ten = false ∧ exec .frame State.reset =
      .next { State.reset with out := [[0x00#8, 0x00#8, 0x00#8, 0x00#8]], pc := 1 } ∧
    faulting.ten = false ∧ exec .frame faulting = .next { faulting with fault := 0x02#8, finfo := 0x350000#24 } :=
  ⟨rfl, rfl, rfl, rfl⟩

end Sys2Proof.Tests
end

/-! PROOFS. The state's family of statements (spec/10_state.md): lemmas about the encoder, the rules and the frames, the invariant step, and what each instruction writes and reads. -/

namespace Sys2Proof

open Sys2Proof.Machine

/-! ### Words and their instructions -/

/-- Every instruction's word lies in its row of the opcode table (R57). -/
theorem opcodeRow : ∀ i : Instr, Laws.OpcodeRow.Statement i
  | .nop => Laws.OpcodeRow.nop
  | .reset => Laws.OpcodeRow.reset
  | .cseed v => Laws.OpcodeRow.cseed v
  | .cbit b => Laws.OpcodeRow.cbit b
  | .cbyte v => Laws.OpcodeRow.cbyte v
  | .cbuf => Laws.OpcodeRow.cbuf
  | .csum v => Laws.OpcodeRow.csum v
  | .seta v => Laws.OpcodeRow.seta v
  | .setn v => Laws.OpcodeRow.setn v
  | .bfill => Laws.OpcodeRow.bfill
  | .bstb v => Laws.OpcodeRow.bstb v
  | .bsent => Laws.OpcodeRow.bsent
  | .seti v => Laws.OpcodeRow.seti v
  | .setl v => Laws.OpcodeRow.setl v
  | .trli v => Laws.OpcodeRow.trli v
  | .trlc => Laws.OpcodeRow.trlc
  | .trln => Laws.OpcodeRow.trln
  | .frame => Laws.OpcodeRow.frame
  | .prof p => Laws.OpcodeRow.prof p
  | .image => Laws.OpcodeRow.image

/-- A byte operand is read back from its immediate (form `I8`). -/
theorem extractLsb'_setWidth_byte (v : Byte) : (v.setWidth 16).extractLsb' 0 8 = v := by
  apply BitVec.eq_of_toNat_eq
  have := v.isLt
  simp [BitVec.extractLsb'_toNat]; omega

/-- An immediate below 256 is the byte it holds, widened (form `I8`). -/
theorem setWidth_extractLsb'_byte {imm : Half} (h : imm.toNat < 2 ^ 8) : (imm.extractLsb' 0 8).setWidth 16 = imm := by
  apply BitVec.eq_of_toNat_eq
  simp [BitVec.extractLsb'_toNat]; omega

/-- An immediate below 2 is its bit 0, widened (form `I1`). -/
theorem setWidth_ofBool_getLsbD_zero {imm : Half} (h : imm.toNat < 2 ^ 1) :
    (BitVec.ofBool (imm.getLsbD 0)).setWidth 16 = imm := by
  obtain h | h : imm = 0#16 ∨ imm = 1#16 := by
    rcases (by omega : imm.toNat = 0 ∨ imm.toNat = 1) with h | h
    · exact .inl (BitVec.eq_of_toNat_eq h)
    · exact .inr (BitVec.eq_of_toNat_eq h)
  · subst h; rfl
  · subst h; rfl

@[simp] theorem bit_profileOfBit (b : Bool) : (profileOfBit b).bit = b := by cases b <;> rfl

/-- An instruction is read back from its opcode's command and its immediate (R56). -/
theorem withImm_imm (i : Instr) : i.op.withImm i.imm = i := by
  cases i with
  | cbyte v => exact congrArg Instr.cbyte (extractLsb'_setWidth_byte v)
  | bstb v => exact congrArg Instr.bstb (extractLsb'_setWidth_byte v)
  | cbit b => cases b <;> rfl
  | prof p => cases p <;> rfl
  | _ => rfl

/-- A legal immediate is the one of the instruction it gives (R56). -/
theorem imm_withImm {o : Op} {imm : Half} (h : imm.toNat < 2 ^ o.form.bits) : (o.withImm imm).imm = imm := by
  cases o with
  | cseed | csum | seta | setn | seti | setl | trli => rfl
  | cbyte | bstb => exact setWidth_extractLsb'_byte h
  | cbit => exact setWidth_ofBool_getLsbD_zero h
  | prof => simpa [Op.withImm, Instr.imm] using setWidth_ofBool_getLsbD_zero h
  | _ => exact BitVec.eq_of_toNat_eq (Nat.lt_one_iff.mp h).symm

/-- Decoding an instruction's word gives the instruction (R59). -/
@[simp] theorem decode_encode (i : Instr) : decode (encode i) = .ok i := by
  obtain ⟨-, -, hz, -⟩ := opcodeRow i
  rw [encode, immField_packWord] at hz
  rw [encode, decode_packWord, if_pos hz, withImm_imm]

/-- A word that decodes is its instruction's word (R59). -/
theorem encode_of_decode {w : Cmd} {i : Instr} (h : decode w = .ok i) : encode i = w := by
  obtain ⟨hop, hz, hi⟩ := decode_ok h
  refine (packWord_eq_iff ..).mpr ⟨hop, ?_⟩
  calc immField w = (i.op.withImm (immField w)).imm := (imm_withImm ((Form.and_mustBeZero ..).mp hz)).symm
    _ = i.imm := by rw [← hi]

/-- No instruction has an illegal word (R58). -/
theorem encode_ne_of_decode_error {w : Cmd} {e : DecodeError} (h : decode w = .error e) (i : Instr) : encode i ≠ w := by
  rintro rfl
  simp at h

/-! ### The host's list -/

/-- A step runs the instruction its word decodes to (R132). -/
theorem step_eq_exec {s : State} {w : Cmd} {i : Instr} (hf : fetch s = some w) (hd : decode w = .ok i) :
    step s = exec i s := by simp [step, hf, hd]

@[simp] theorem tableWord_toNat (w : Cmd) : tableWord 24 w.toNat = w := by
  simp [tableWord, Nat.mod_eq_of_lt w.isLt]

/-- The word placed for the next step is the next one fetched. -/
@[simp] theorem fetch_withFetchWord (s : State) (nbits w : Nat) :
    fetch (s.withFetchWord nbits w) = some (tableWord nbits w) := placeWord_getElem? ..

/-- A fetched word stands in the list, so pc may advance past it. -/
theorem pc_lt_of_fetch {s : State} {w : Cmd} (h : fetch s = some w) : s.pc < s.cmds.length :=
  (List.getElem?_eq_some_iff.mp h).1

/-- Settles O46: the placed word is the one fetched, and it decodes to its instruction. -/
theorem placedWordRunsNext : Obligations.PlacedWordRunsNext := fun s i =>
  step_eq_exec (by rw [fetch_withFetchWord, tableWord_toNat]) (decode_encode i)

/-! ### When a guarded rule completes and when it raises -/

/-- CBUF and CSUM complete exactly when their range lies in BUF (R79, R80). -/
theorem checksumRange_eq_ok {seed : Half} {s u : State} :
    checksumRange seed s = .ok u ↔ rangeInBuf s.addr.toNat s.cnt.toNat ∧
      { s with crc := checksum (readSlice s s.addr.toNat s.cnt.toNat) seed } = u := by
  by_cases h : rangeInBuf s.addr.toNat s.cnt.toNat
  · simp [checksumRange, addrRange_ok h, h]
  · simp [checksumRange, addrRange_error h, h]

theorem checksumRange_eq_error {seed : Half} {s : State} {c : FaultCode} :
    checksumRange seed s = .error c ↔ ¬ rangeInBuf s.addr.toNat s.cnt.toNat ∧ .bounds = c := by
  by_cases h : rangeInBuf s.addr.toNat s.cnt.toNat
  · simp [checksumRange, addrRange_ok h, h]
  · simp [checksumRange, addrRange_error h, h]

/-- BSTB completes exactly when its address exists (R93). -/
theorem storePostIncrement_eq_ok {v : Byte} {s u : State} :
    storePostIncrement v s = .ok u ↔ addrInBuf s.addr.toNat ∧
      { writeByte s.addr.toNat v s with addr := s.addr + 1#16 } = u := by
  by_cases h : addrInBuf s.addr.toNat
  · simp [storePostIncrement_ok h, h]
  · simp [storePostIncrement_error h, h]

theorem storePostIncrement_eq_error {v : Byte} {s : State} {c : FaultCode} :
    storePostIncrement v s = .error c ↔ ¬ addrInBuf s.addr.toNat ∧ .bounds = c := by
  by_cases h : addrInBuf s.addr.toNat
  · simp [storePostIncrement_ok h, h]
  · simp [storePostIncrement_error h, h]

/-- A rule that needs a profile completes exactly when one is selected (R144). -/
theorem withProfile_eq_ok {k : Profile → State → State} {s u : State} :
    withProfile k s = .ok u ↔ ∃ p, selectedProfile s.prof = some p ∧ k p s = u := by
  cases h : selectedProfile s.prof <;> simp [withProfile, h]

theorem withProfile_eq_error {k : Profile → State → State} {s : State} {c : FaultCode} :
    withProfile k s = .error c ↔ selectedProfile s.prof = none ∧ .profile = c := by
  cases h : selectedProfile s.prof <;> simp [withProfile, h]

/-- FRAME completes exactly when both its checks pass (R106). -/
theorem frameRule_eq_ok {s u : State} :
    frameRule s = .ok u ↔
      s.len.toNat ≤ Config.maxBlock ∧ rangeInBuf s.addr.toNat s.len.toNat ∧ composeFrame s = u := by
  by_cases hl : s.len.toNat ≤ Config.maxBlock
  · by_cases hb : rangeInBuf s.addr.toNat s.len.toNat <;> simp [frameRule, hl, hl.not_gt, hb]
  · simp [frameRule, hl, Nat.lt_of_not_le hl]

theorem frameRule_eq_error {s : State} {c : FaultCode} :
    frameRule s = .error c ↔
      (Config.maxBlock < s.len.toNat ∧ .length = c) ∨
      (s.len.toNat ≤ Config.maxBlock ∧ ¬ rangeInBuf s.addr.toNat s.len.toNat ∧ .bounds = c) := by
  by_cases hl : s.len.toNat ≤ Config.maxBlock
  · by_cases hb : rangeInBuf s.addr.toNat s.len.toNat <;> simp [frameRule, hl, hl.not_gt, hb]
  · simp [frameRule, hl, Nat.lt_of_not_le hl]

/-- Which command's rule raises which fault, and when (R142, R143, R144). -/
theorem ruleOf_error_cases {i : Instr} {s : State} {c : FaultCode} (h : ruleOf i s = .error c) :
    (c = .length ∧ i = .frame ∧ Config.maxBlock < s.len.toNat) ∨
    (c = .bounds ∧ i = .frame ∧ s.len.toNat ≤ Config.maxBlock ∧ ¬ rangeInBuf s.addr.toNat s.len.toNat) ∨
    (c = .bounds ∧ (i = .cbuf ∨ ∃ seed, i = .csum seed) ∧ ¬ rangeInBuf s.addr.toNat s.cnt.toNat) ∨
    (c = .bounds ∧ (∃ v, i = .bstb v) ∧ ¬ addrInBuf s.addr.toNat) ∨
    (c = .profile ∧ (i = .bfill ∨ i = .bsent ∨ i = .image) ∧ selectedProfile s.prof = none) := by
  cases i with
  | frame =>
    obtain ⟨hl, rfl⟩ | ⟨hl, hb, rfl⟩ := frameRule_eq_error.mp h
    · exact .inl ⟨rfl, rfl, hl⟩
    · exact .inr (.inl ⟨rfl, rfl, hl, hb⟩)
  | cbuf =>
    obtain ⟨hb, rfl⟩ := checksumRange_eq_error.mp h
    exact .inr (.inr (.inl ⟨rfl, .inl rfl, hb⟩))
  | csum seed =>
    obtain ⟨hb, rfl⟩ := checksumRange_eq_error.mp h
    exact .inr (.inr (.inl ⟨rfl, .inr ⟨seed, rfl⟩, hb⟩))
  | bstb v =>
    obtain ⟨hb, rfl⟩ := storePostIncrement_eq_error.mp h
    exact .inr (.inr (.inr (.inl ⟨rfl, ⟨v, rfl⟩, hb⟩)))
  | bfill | bsent | image =>
    obtain ⟨hp, rfl⟩ := withProfile_eq_error.mp h
    exact .inr (.inr (.inr (.inr ⟨rfl, by simp, hp⟩)))
  | _ => cases h

/-! ### What a completed rule writes -/

/-- A rule changes a register only if the state table names its command as a writer (R10): with the rule's writes written
out, each register is either named for the command or reads as before. -/
theorem op_mem_writers_of_ruleOf {i : Instr} {s u : State} {r : Reg} (h : ruleOf i s = .ok u)
    (hr : hostReadReg u r ≠ hostReadReg s r) : i.op ∈ Reg.writers r := by
  cases i with
  | cbuf | csum =>
    obtain ⟨-, rfl⟩ := checksumRange_eq_ok.mp h
    cases r <;> simp [Reg.writers, Instr.op] <;> exact hr rfl
  | bstb =>
    obtain ⟨-, rfl⟩ := storePostIncrement_eq_ok.mp h
    cases r <;> simp [Reg.writers, Instr.op] <;> exact hr rfl
  | frame =>
    obtain ⟨-, -, rfl⟩ := frameRule_eq_ok.mp h
    cases r <;> exact absurd rfl hr
  | bfill | bsent =>
    obtain ⟨p, -, rfl⟩ := withProfile_eq_ok.mp h
    cases r <;> exact absurd rfl hr
  | image =>
    obtain ⟨p, -, rfl⟩ := withProfile_eq_ok.mp h
    rw [imageSteps_eq] at hr
    cases r <;> simp [Reg.writers, Instr.op] <;> exact hr rfl
  | _ =>
    cases h
    cases r <;> simp [Reg.writers, Instr.op] <;> exact hr rfl

/-- A rule changes BUF only if it is one of the four that write it (R10), and how. -/
theorem ruleOf_buf_cases {i : Instr} {s u : State} (h : ruleOf i s = .ok u) :
    u.buf = s.buf ∨
    (i = .bfill ∧ ∃ p, u.buf = Memory.fill s.buf (Config.imgSize p) Config.erased) ∨
    (∃ v, i = .bstb v ∧ addrInBuf s.addr.toNat ∧ u.buf = Memory.insert s.buf s.addr.toNat v) ∨
    ((i = .bsent ∨ i = .image) ∧ ∃ p, u.buf = (forceSentinel p s).buf) := by
  cases i with
  | cbuf | csum => obtain ⟨-, rfl⟩ := checksumRange_eq_ok.mp h; exact .inl rfl
  | frame => obtain ⟨-, -, rfl⟩ := frameRule_eq_ok.mp h; exact .inl rfl
  | bfill => obtain ⟨p, -, rfl⟩ := withProfile_eq_ok.mp h; exact .inr (.inl ⟨rfl, p, rfl⟩)
  | bstb v => obtain ⟨ha, rfl⟩ := storePostIncrement_eq_ok.mp h; exact .inr (.inr (.inl ⟨v, rfl, ha, rfl⟩))
  | bsent => obtain ⟨p, -, rfl⟩ := withProfile_eq_ok.mp h; exact .inr (.inr (.inr ⟨.inl rfl, p, rfl⟩))
  | image =>
    obtain ⟨p, -, rfl⟩ := withProfile_eq_ok.mp h
    exact .inr (.inr (.inr ⟨.inr rfl, p, by simp [imageSteps_eq]⟩))
  | _ => cases h; exact .inl rfl

/-! ### What a rule emits -/

/-- The frames a completed rule appends to OUT (R106, R118). -/
def framesOf : Instr → State → List (List Byte)
  | .frame, s => [frameBytes s.idx s.len (readSlice s s.addr.toNat s.len.toNat) (trailerOf s)]
  | .image, s =>
    (selectedProfile s.prof).elim [] fun p =>
      (List.range (Config.nBlk p)).map (imageFrame p (imageChecksum p (forceSentinel p s)))
  | _, _ => []

/-- What is in OUT reaches a rule's result in OUT alone, before the frames the rule emits (R20, R30 (b)). -/
theorem ruleOf_withOut (i : Instr) (s : State) (o : List (List Byte)) :
    ruleOf i { s with out := o } = (ruleOf i s).map (fun u => { u with out := o ++ framesOf i s }) := by
  cases i with
  | image =>
    cases h : selectedProfile s.prof with
    | none => simp [ruleOf, withProfile, h, Except.map]
    | some p =>
      simp only [ruleOf, withProfile, h, Except.map, framesOf, Option.elim, imageSteps_eq]
      rfl
  | frame =>
    simp only [ruleOf, frameRule]
    split
    · rfl
    · split <;> rfl
  | cbuf | csum =>
    by_cases h : rangeInBuf s.addr.toNat s.cnt.toNat
    · simp [ruleOf, checksumRange, addrRange, h, Except.map, framesOf, readSlice]
    · simp [ruleOf, checksumRange, addrRange, h, Except.map]
  | bstb =>
    by_cases h : addrInBuf s.addr.toNat
    · simp [ruleOf, storePostIncrement, h, Except.map, framesOf, writeByte]
    · simp [ruleOf, storePostIncrement, h, Except.map]
  | bfill | bsent =>
    cases h : selectedProfile s.prof with
    | none => simp [ruleOf, withProfile, h, Except.map]
    | some p => simp [ruleOf, withProfile, h, Except.map, framesOf, fillBytes, forceSentinel, writeByte]
  | _ => simp [ruleOf, Except.map, framesOf, setTrailer, clearTrailer]

/-- A completed rule appends its frames to OUT and leaves what was there (R20). -/
theorem out_of_ruleOf {i : Instr} {s u : State} (h : ruleOf i s = .ok u) : u.out = s.out ++ framesOf i s := by
  have hu : ruleOf i s = .ok { u with out := s.out ++ framesOf i s } := by
    simpa [h, Except.map] using ruleOf_withOut i s s.out
  rw [h] at hu
  exact congrArg State.out (Except.ok.inj hu)

/-- A 16-bit value is put together again from its two bytes. -/
theorem half_hi8_lo8 (v : Half) : half (hi8 v) (lo8 v) = v := by
  rw [half, hi8, lo8, BitVec.extractLsb'_append_extractLsb'_eq_extractLsb' (by rfl)]
  exact BitVec.extractLsb'_eq_self

theorem frameBytes_length (i l : Half) (pay : List Byte) (t : Option Half) :
    (frameBytes i l pay t).length = 4 + pay.length + (if t.isSome then 2 else 0) := by
  cases t <;> simp [frameBytes, hdr, trl] <;> omega

/-- Bytes 2 and 3 of a frame hold its length (R50). -/
theorem frameBytes_lengthField (i l : Half) (pay : List Byte) (t : Option Half) :
    half ((frameBytes i l pay t).getD 2 0#8) ((frameBytes i l pay t).getD 3 0#8) = l := by
  cases t <;> exact half_hi8_lo8 l

/-- The serialisation of a Block has the shape of a frame (R28). -/
theorem frameShaped_frameBytes {i l : Half} {pay : List Byte} {t : Option Half} (hp : pay.length = l.toNat)
    (hl : l.toNat ≤ Config.maxBlock) : FrameShaped (frameBytes i l pay t) := by
  unfold FrameShaped
  rw [frameBytes_lengthField, frameBytes_length, hp]
  split <;> omega

theorem toNat_ofNat_blkLen (p : Profile) : (BitVec.ofNat 16 (Config.blkLen p)).toNat = Config.blkLen p := by
  cases p <;> rfl

/-- Every frame a completed rule emits has the shape of a frame (R28). -/
theorem frameShaped_of_mem_framesOf {i : Instr} {s u : State} (h : ruleOf i s = .ok u) {f : List Byte}
    (hf : f ∈ framesOf i s) : FrameShaped f := by
  cases i with
  | frame =>
    obtain ⟨hl, -, -⟩ := frameRule_eq_ok.mp h
    obtain rfl := List.mem_singleton.mp hf
    exact frameShaped_frameBytes (readSlice_length ..) hl
  | image =>
    obtain ⟨p, hp, -⟩ := withProfile_eq_ok.mp h
    rw [framesOf, hp] at hf
    obtain ⟨k, -, rfl⟩ := List.mem_map.mp hf
    have hb : Config.blkLen p ≤ Config.maxBlock := (blkLen_le p).trans (by decide)
    exact frameShaped_frameBytes (by rw [readSlice_length, toNat_ofNat_blkLen]) (by rwa [toNat_ofNat_blkLen])
  | _ => cases hf

/-! ### The invariant -/

theorem wf_buf_forceSentinel {s : State} (p : Profile) (h : Memory.wf s.buf) : Memory.wf (forceSentinel p s).buf := by
  have h2 := two_le_imgSize p
  have hs := imgSize_le_bufSize p
  exact Memory.wf_insert _ _ _ (Memory.wf_insert _ _ _ h (by omega)) (by omega)

/-- A completed rule keeps the canonical form of BUF. -/
theorem wf_buf_of_ruleOf {i : Instr} {s u : State} (h : ruleOf i s = .ok u) (hs : Memory.wf s.buf) : Memory.wf u.buf := by
  rcases ruleOf_buf_cases h with hb | ⟨-, p, hb⟩ | ⟨v, -, ha, hb⟩ | ⟨-, p, hb⟩
  · rwa [hb]
  · rw [hb]; exact Memory.wf_fill _ _ _ hs (imgSize_le_bufSize p)
  · rw [hb]; exact Memory.wf_insert _ _ _ hs ha
  · rw [hb]; exact wf_buf_forceSentinel p hs

theorem profOf_ne_01 (p : Profile) : profOf p ≠ 0b01#2 := by cases p <;> decide

/-- A completed rule leaves PROF one of its three legal values (R18). -/
theorem prof_legal_of_ruleOf {i : Instr} {s u : State} (h : ruleOf i s = .ok u) (hs : s.prof ≠ 0b01#2) :
    u.prof ≠ 0b01#2 := by
  by_cases hu : u.prof = s.prof
  · rwa [hu]
  · have hw : i.op ∈ [Op.prof, .reset] := op_mem_writers_of_ruleOf (r := .prof) h hu
    cases i with
    | prof p => cases h; exact profOf_ne_01 p
    | reset => cases h; exact hs
    | _ => simp [Instr.op] at hw

/-- What the invariant asks of FAULT and FINFO holds after a fault a rule raised. -/
theorem faultRecorded_raise_of_ruleOf {i : Instr} {s : State} {c : FaultCode} (h : ruleOf i s = .error c) :
    FaultRecorded (raise c (encode i) s) := by
  rcases ruleOf_error_cases h with ⟨rfl, rfl, -⟩ | ⟨rfl, rfl, -⟩ | ⟨rfl, hi, -⟩ | ⟨rfl, ⟨v, rfl⟩, -⟩ | ⟨rfl, hi, -⟩
  · exact .inr (.inr (.inl ⟨rfl, rfl⟩))
  · exact .inr (.inr (.inr (.inl ⟨rfl, .inr (.inl rfl)⟩)))
  · refine .inr (.inr (.inr (.inl ⟨rfl, ?_⟩)))
    rcases hi with rfl | ⟨seed, rfl⟩
    · exact .inl rfl
    · exact .inr (.inr (.inl ⟨seed, rfl⟩))
  · exact .inr (.inr (.inr (.inl ⟨rfl, .inr (.inr (.inr ⟨v, rfl⟩))⟩)))
  · refine .inr (.inr (.inr (.inr ⟨rfl, ?_⟩)))
    rcases hi with rfl | rfl | rfl
    · exact .inl rfl
    · exact .inr (.inl rfl)
    · exact .inr (.inr rfl)

/-- Fault entry with the word at pc keeps the invariant, if the word is one that can raise the fault (R147). -/
theorem inv_raise {c : FaultCode} {w : Cmd} {s : State} (hs : Inv s) (hw : fetch s = some w)
    (hr : FaultRecorded (raise c w s)) : Inv (raise c w s) where
  bufCanonical := hs.bufCanonical
  profLegal := hs.profLegal
  faultRecorded := hr
  framesShaped := hs.framesShaped
  pcInList := hs.pcInList
  faultAtPc _ := hw

/-- A completed rule and the pc step after it keep the invariant. -/
theorem inv_of_ruleOf {i : Instr} {s u : State} {w : Cmd} (hs : Inv s) (hw : fetch s = some w) (hf : s.fault = 0x00#8)
    (h : ruleOf i s = .ok u) : Inv { u with pc := s.pc + 1 } := by
  obtain ⟨hfault, hfinfo, -, hcmds, -⟩ := ruleOf_keeps h
  exact {
    bufCanonical := wf_buf_of_ruleOf (u := u) h hs.bufCanonical
    profLegal := prof_legal_of_ruleOf (u := u) h hs.profLegal
    faultRecorded := by simpa only [FaultRecorded, hfault, hfinfo] using hs.faultRecorded
    framesShaped := fun f hm => by
      rcases List.mem_append.mp (out_of_ruleOf h ▸ hm) with hm | hm
      · exact hs.framesShaped f hm
      · exact frameShaped_of_mem_framesOf h hm
    pcInList := by simpa [hcmds] using pc_lt_of_fetch hw
    faultAtPc := fun hne => absurd (hfault.trans hf) hne }

/-- RESET keeps the invariant. -/
theorem inv_resetState {s : State} {w : Cmd} (hs : Inv s) (hw : fetch s = some w) :
    Inv { resetState s with pc := s.pc + 1 } where
  bufCanonical := Memory.wf_nil
  profLegal := by simp
  faultRecorded := .inl ⟨rfl, rfl⟩
  framesShaped := hs.framesShaped
  pcInList := pc_lt_of_fetch hw
  faultAtPc h := absurd rfl h

/-- Settles O47: a step that does something resets, completes a rule, or enters a fault with the word at pc. -/
theorem stepKeepsInv : Obligations.StepKeepsInv := by
  intro s t hs h
  rcases step_cases h with ⟨-, rfl⟩ | ⟨w, i, hw, hd, h⟩ | ⟨w, e, hw, hd, h⟩
  · exact hs
  · rcases exec_cases h with ⟨-, rfl⟩ | ⟨-, -, rfl⟩ | ⟨-, hf, u, hu, rfl⟩ | ⟨-, -, c, hc, rfl⟩
    · exact inv_resetState hs hw
    · exact hs
    · exact inv_of_ruleOf hs hw hf hu
    · exact inv_raise hs (by rw [hw, encode_of_decode hd]) (faultRecorded_raise_of_ruleOf hc)
  · rcases illegalWord_cases h with ⟨-, rfl⟩ | ⟨-, rfl⟩
    · exact hs
    · exact inv_raise hs hw (.inr (.inl ⟨rfl, encode_ne_of_decode_error hd⟩))

/-- Settles O48: the reset state has no byte of BUF, no frame, no fault and an empty list. -/
theorem resetMeetsInv : Obligations.ResetMeetsInv where
  bufCanonical := Memory.wf_reset
  profLegal := by decide
  faultRecorded := .inl ⟨rfl, rfl⟩
  framesShaped f hf := by cases hf
  pcInList := Nat.zero_le _
  faultAtPc h := absurd rfl h

/-! ### What one instruction writes and reads -/

/-- A halted machine does not take an instruction other than RESET (R132). -/
theorem exec_halted {i : Instr} {s : State} (hi : i ≠ .reset) (hf : s.fault ≠ 0x00#8) : exec i s = .next s := by
  rw [exec_eq_perform i s hi, perform_halted i _ hf]

/-- Settles O51, by the four things an instruction can do. -/
theorem pcAdvancesExactlyOnCompletion : Obligations.PcAdvancesExactlyOnCompletion := by
  intro i s t h
  rcases exec_cases h with ⟨-, rfl⟩ | ⟨-, hf, rfl⟩ | ⟨-, hf, u, hu, rfl⟩ | ⟨-, -, c, -, rfl⟩
  · exact ⟨fun _ => rfl, fun hne => absurd rfl hne⟩
  · exact ⟨fun h0 => absurd h0 hf, fun _ => rfl⟩
  · obtain ⟨hfault, -⟩ := ruleOf_keeps hu
    have hu0 : u.fault = 0x00#8 := hfault.trans hf
    exact ⟨fun _ => rfl, fun hne => absurd hu0 hne⟩
  · exact ⟨fun h0 => absurd h0 c.code_ne_zero, fun _ => rfl⟩

/-- Settles O49: a completed rule appends `framesOf`; in every other case OUT stays. -/
theorem outOnlyGrowsAndIsNeverRead : Obligations.OutOnlyGrowsAndIsNeverRead := by
  intro i s t h
  rcases exec_cases h with ⟨rfl, rfl⟩ | ⟨hi, hf, rfl⟩ | ⟨hi, hf, u, hu, rfl⟩ | ⟨hi, hf, c, hc, rfl⟩
  · exact ⟨[], by simp, fun o => by simp [exec_reset, resetState]⟩
  · exact ⟨[], by simp, fun o => by rw [List.append_nil]; exact exec_halted hi hf⟩
  · refine ⟨framesOf i s, out_of_ruleOf (u := u) hu, fun o => ?_⟩
    exact exec_ok (u := { u with out := o ++ framesOf i s }) hi hf (by rw [ruleOf_withOut, hu]; rfl)
  · refine ⟨[], by simp, fun o => ?_⟩
    rw [List.append_nil]
    exact exec_error hi hf (by rw [ruleOf_withOut, hc]; rfl)

/-- Settles O50: RESET is a writer everywhere, a completed rule changes only what its command writes, and fault entry changes
FAULT and FINFO alone. -/
theorem stateChangesOnlyByItsWriters : Obligations.StateChangesOnlyByItsWriters := by
  intro i s t h
  rcases exec_cases h with ⟨rfl, rfl⟩ | ⟨-, -, rfl⟩ | ⟨-, hf, u, hu, rfl⟩ | ⟨-, hf, c, -, rfl⟩
  · refine ⟨fun r _ => .inl ⟨rfl, by cases r <;> decide⟩, fun _ => by decide, fun h => absurd rfl h⟩
  · exact ⟨fun r h => absurd rfl h, fun ⟨a, h⟩ => absurd rfl h, fun h => absurd rfl h⟩
  · obtain ⟨hfault, -, -, -, hepoch⟩ := ruleOf_keeps hu
    refine ⟨fun r hr => .inl ⟨hfault.trans hf, op_mem_writers_of_ruleOf hu ?_⟩, fun ⟨a, ha⟩ => ?_, fun ho => ?_⟩
    · cases r <;> exact hr
    · rcases ruleOf_buf_cases hu with hb | ⟨rfl, -⟩ | ⟨v, rfl, -⟩ | ⟨rfl | rfl, -⟩
      · exact absurd (readByte_congr hb hepoch a) ha
      all_goals simp [Instr.op]
    · have hne : framesOf i s ≠ [] := fun h0 => ho (by simpa [h0] using out_of_ruleOf hu)
      cases i with
      | frame | image => simp [Instr.op]
      | _ => exact absurd rfl hne
  · refine ⟨fun r hr => .inr ⟨hf, c.code_ne_zero, ?_⟩, fun ⟨a, h⟩ => absurd rfl h, fun h => absurd rfl h⟩
    cases r with
    | fault => exact .inl rfl
    | finfo => exact .inr rfl
    | _ => exact absurd rfl hr

/-- The rule of FRAME does not read TRL while TEN is 0 (R16). -/
theorem frameRule_withTrl {s : State} (h : s.ten = false) (v : Half) :
    frameRule { s with trl := v } = (frameRule s).map (fun u => { u with trl := v }) := by
  have hc : composeFrame { s with trl := v } = { composeFrame s with trl := v } := by
    simp [composeFrame, emit, trailerOf, h, readSlice]
  simp only [frameRule, hc]
  split
  · rfl
  · split <;> rfl

/-- Settles O54: FRAME is not taken, completes or faults alike in both states. -/
theorem trailerValueIsNotReadWithoutTen : Obligations.TrailerValueIsNotReadWithoutTen := by
  intro s t v hten h
  have hi : Instr.frame ≠ .reset := by decide
  have hrule : ruleOf .frame { s with trl := v } = (ruleOf .frame s).map (fun u => { u with trl := v }) :=
    frameRule_withTrl hten v
  rcases exec_cases h with ⟨hr, -⟩ | ⟨-, hf, rfl⟩ | ⟨-, hf, u, hu, rfl⟩ | ⟨-, hf, c, hc, rfl⟩
  · exact absurd hr hi
  · exact exec_halted hi hf
  · exact exec_ok (u := { u with trl := v }) hi hf (by rw [hrule, hu]; rfl)
  · exact exec_error hi hf (by rw [hrule, hc]; rfl)

/-- Settles O55: the values are those of the definition, and no byte of BUF is listed. -/
theorem resetValues : Obligations.ResetValues :=
  ⟨rfl, rfl, rfl, rfl, rfl, rfl, rfl, rfl, rfl, rfl, rfl, fun _ => rfl⟩

end Sys2Proof

section
/-! The host's command list, which every step keeps (R44, R22). -/

namespace Sys2Proof

open Sys2Proof.Machine

/-- No instruction writes the host's list: neither a completed rule, nor the reset, nor fault entry. -/
theorem exec_cmds {i : Instr} {s t : State} (h : exec i s = .next t) : t.cmds = s.cmds := by
  rcases exec_cases h with ⟨-, rfl⟩ | ⟨-, -, rfl⟩ | ⟨-, -, u, hu, rfl⟩ | ⟨-, -, c, -, rfl⟩
  · exact resetState_cmds s
  · rfl
  · obtain ⟨-, -, -, hcmds, -⟩ := ruleOf_keeps hu
    exact hcmds
  · exact raise_cmds c (encode i) s

/-- An illegal word does not write the host's list. -/
theorem illegalWord_cmds {w : Cmd} {s t : State} (h : illegalWord w s = .next t) : t.cmds = s.cmds := by
  rcases illegalWord_cases h with ⟨-, rfl⟩ | ⟨-, rfl⟩
  · rfl
  · exact raise_cmds .illegal w s

/-- Settles O52, by what a step does: it is idle, runs an instruction, or meets an illegal word. -/
theorem commandListNeverChanges : Obligations.CommandListNeverChanges := by
  intro s t h
  rcases step_cases h with ⟨-, rfl⟩ | ⟨w, i, -, -, h⟩ | ⟨w, e, -, -, h⟩
  · rfl
  · exact exec_cmds h
  · exact illegalWord_cmds h

end Sys2Proof
end

section
/-! PROOFS. The command encoding (spec/30_encoding.md R55 to R61): which words are commands, which are illegal, and what a written line assembles to. -/

namespace Sys2Proof

open Sys2Proof.Machine

/-! ### Commands and their words -/

/-- Settles O1: the word's must-be-zero bits are zero, and its operand is read back from its immediate. -/
theorem decodeInvertsEncode : Obligations.DecodeInvertsEncode := decode_encode

/-- The words that decode to an instruction: its own one alone (R59). -/
theorem decode_eq_ok_iff {w : Cmd} {i : Instr} : decode w = .ok i ↔ w = encode i := by
  constructor
  · intro h
    exact (encode_of_decode h).symm
  · rintro rfl
    exact decode_encode i

/-- Settles O2: the one word of an instruction is its encoding. -/
theorem everyCommandHasExactlyOneWord : Obligations.EveryCommandHasExactlyOneWord := by
  refine ⟨fun w w' i h h' => ?_, fun i => ⟨encode i, decode_encode i, fun w' h' => decode_eq_ok_iff.mp h'⟩⟩
  exact (decode_eq_ok_iff.mp h).trans (decode_eq_ok_iff.mp h').symm

/-- An instruction's operand is the value of its immediate (R56). -/
theorem operand_eq_toNat_imm (i : Instr) : i.operand = i.imm.toNat := by
  cases i with
  | cbit b => cases b <;> rfl
  | prof p => cases p <;> rfl
  | cbyte v | bstb v => exact (BitVec.toNat_setWidth_of_le (by decide)).symm
  | _ => rfl

/-- What the decoder answers for a word whose opcode is assigned (R56, R58 (b)). -/
theorem decode_of_opField {w : Cmd} {o : Op} (h : opField w = o.code) :
    decode w = if immField w &&& o.form.mustBeZero = 0#16 then .ok (o.withImm (immField w)) else .error .mustBeZeroBitSet := by
  rw [← decode_packWord, ← h, packWord_fields]

/-- A word decodes to a command of a row exactly when it has the row's opcode and its unused bits are zero (R56, R57). -/
theorem exists_decode_ok_iff_fields {w : Cmd} {o : Op} :
    (∃ i, decode w = .ok i ∧ i.op = o) ↔ opField w = o.code ∧ immField w &&& o.form.mustBeZero = 0#16 := by
  constructor
  · rintro ⟨i, hd, rfl⟩
    obtain ⟨hop, hz, -⟩ := decode_ok hd
    exact ⟨hop, hz⟩
  · rintro ⟨hop, hz⟩
    exact ⟨_, (decode_of_opField hop).trans (if_pos hz), Op.op_withImm ..⟩

/-- The mask and match columns compare a word's opcode and its unused bits (R57). -/
theorem and_maskBits_eq_matchBits_iff {w : Cmd} {o : Op} :
    w &&& o.maskBits = o.matchBits ↔ opField w = o.code ∧ immField w &&& o.form.mustBeZero = 0#16 := by
  have hand : w &&& o.maskBits = packWord (opField w) (immField w &&& o.form.mustBeZero) := by
    conv_lhs => rw [← packWord_fields w]
    rw [Laws.OpcodeRow.maskBits_eq, Laws.OpcodeRow.and_packWord]
    exact congrArg (packWord · _) BitVec.and_allOnes
  rw [hand, Laws.OpcodeRow.matchBits_eq, packWord_eq_iff, opField_packWord, immField_packWord]
  exact and_congr eq_comm eq_comm

/-- Settles O3: the columns and the decoder ask the same of a word's two fields. -/
theorem wordsMatchTheOpcodeMap : Obligations.WordsMatchTheOpcodeMap := by
  refine ⟨fun w o => and_maskBits_eq_matchBits_iff.trans exists_decode_ok_iff_fields.symm, fun w i h => ?_⟩
  obtain rfl := decode_eq_ok_iff.mp h
  exact ⟨opField_packWord .., by rw [encode, immField_packWord, operand_eq_toNat_imm]⟩

/-! ### Illegal words -/

/-- R58 (a): the opcode is none of the twenty. -/
theorem decode_eq_unassignedOpcode_iff {w : Cmd} : decode w = .error .unassignedOpcode ↔ ∀ o : Op, opField w ≠ o.code := by
  constructor
  · intro h o ho
    rw [decode_of_opField ho] at h
    split at h <;> cases h
  · intro h
    cases ho : Op.ofCode? (opField w) with
    | none => simp [decode, ho]
    | some o => exact absurd (Op.code_of_ofCode? ho).symm (h o)

/-- R58 (b): the opcode is assigned and a must-be-zero bit of its form is 1. -/
theorem decode_eq_mustBeZeroBitSet_iff {w : Cmd} :
    decode w = .error .mustBeZeroBitSet ↔ ∃ o : Op, opField w = o.code ∧ immField w &&& o.form.mustBeZero ≠ 0#16 := by
  constructor
  · intro h
    by_cases ha : ∀ o : Op, opField w ≠ o.code
    · rw [decode_eq_unassignedOpcode_iff.mpr ha] at h
      cases h
    · obtain ⟨o, ho⟩ := not_forall_not.mp ha
      refine ⟨o, ho, fun hz => ?_⟩
      rw [decode_of_opField ho, if_pos hz] at h
      cases h
  · rintro ⟨o, ho, hz⟩
    rw [decode_of_opField ho, if_neg hz]

/-- A running machine that fetches an illegal word raises ILLEGAL and changes nothing else (R141, R147). -/
theorem step_of_illegal {s : State} {w : Cmd} (hf : s.fault = 0x00#8) (hw : fetch s = some w) (h : ∀ i, decode w ≠ .ok i) :
    step s = .next (raise .illegal w s) := by
  cases hd : decode w with
  | ok i => exact absurd hd (h i)
  | error e => simp [step, hw, hd, illegalWord, State.halted, hf]

/-- The word of NOP (R57). -/
theorem encode_nop : encode .nop = 0x000000#24 := by decide

/-- Settles O4: the decoder's two answers, the words of R58, and the step of a word that decodes to nothing. -/
theorem illegalWordsAreRejected : Obligations.IllegalWordsAreRejected := by
  refine ⟨fun w => decode_eq_unassignedOpcode_iff, fun w => decode_eq_mustBeZeroBitSet_iff,
    List.forall_iff_forall_mem.mp (by decide), List.forall_iff_forall_mem.mp (by decide), fun w => ?_, fun s w => step_of_illegal⟩
  rw [decode_eq_ok_iff, encode_nop]

/-- Settles O5: closed words, evaluated. -/
theorem specWordsDecode : Obligations.SpecWordsDecode := by
  unfold Obligations.SpecWordsDecode
  decide

/-! ### Written commands -/

/-- No form is wider than the immediate (R56). -/
theorem Form.two_pow_bits_le (f : Form) : 2 ^ f.bits ≤ 65536 := by cases f <;> decide

/-- A well-formed line assembles to its command with its operand as the immediate (R61). -/
theorem assembleLine_of_wellFormed {l : Line} (h : l.wellFormed = true) :
    assembleLine l = .ok (l.op.withImm (BitVec.ofNat 16 (l.operand.getD 0))) := by
  obtain ⟨hp, hr⟩ : l.operandPresent = true ∧ l.operandInRange = true := by simpa [Line.wellFormed] using h
  simp [assembleLine, hp, hr]

/-- A line that is not well formed fails one of the assembler's two checks (R61). -/
theorem assembleLine_of_not_wellFormed {l : Line} (h : l.wellFormed = false) : ∃ e, assembleLine l = .error e := by
  cases hp : l.operandPresent with
  | false => exact ⟨.operandCount, by simp [assembleLine, hp]⟩
  | true =>
    have hr : l.operandInRange = false := by simpa [Line.wellFormed, hp] using h
    exact ⟨.operandOutOfRange, by simp [assembleLine, hp, hr]⟩

/-- The word of a command with an operand in its form's range, as a number (R61). -/
theorem encode_withImm_toNat {o : Op} {n : Nat} (h : n < 2 ^ o.form.bits) :
    (encode (o.withImm (BitVec.ofNat 16 n))).toNat = o.code.toNat * 65536 + n := by
  have hn : (BitVec.ofNat 16 n).toNat = n := Nat.mod_eq_of_lt (h.trans_le o.form.two_pow_bits_le)
  rw [encode, packWord_toNat, Op.op_withImm, imm_withImm (by rwa [hn]), hn]

/-- Settles O6: the two checks, and the word of a command whose operand is in range. -/
theorem writtenCommandsAssemble : Obligations.WrittenCommandsAssemble := by
  refine ⟨fun l h => ⟨_, assembleLine_of_wellFormed h, Op.op_withImm .., encode_withImm_toNat ?_⟩,
    fun l => assembleLine_of_not_wellFormed⟩
  have hr : l.operandInRange = true := (Bool.and_eq_true_iff.mp h).2
  exact of_decide_eq_true hr

end Sys2Proof
end

section
/-! PROOFS. The frame encoding (spec/30_encoding.md R50 to R53): a frame by offset, and read back. -/

namespace Sys2Proof

open Sys2Proof.Machine

/-- The two bytes of a 16-bit value, as numbers (R7). -/
theorem hi8_toNat (v : Half) : (hi8 v).toNat = v.toNat / 256 := by
  have := v.isLt
  simp [hi8, BitVec.extractLsb'_toNat, Nat.shiftRight_eq_div_pow]; omega

theorem lo8_toNat (v : Half) : (lo8 v).toNat = v.toNat % 256 := by simp [lo8, BitVec.extractLsb'_toNat]

/-- The header is big-endian (R50). -/
theorem hdr_map_toNat (i l : Half) :
    (hdr i l).map BitVec.toNat = [i.toNat / 256, i.toNat % 256, l.toNat / 256, l.toNat % 256] := by
  simp [hdr, hi8_toNat, lo8_toNat]

/-- The trailer is low byte first (R51). -/
theorem trl_map_toNat (t : Half) : (trl t).map BitVec.toNat = [t.toNat % 256, t.toNat / 256] := by
  simp [trl, hi8_toNat, lo8_toNat]

/-- A frame in its three parts, the trailer possibly absent (R52). -/
theorem frameBytes_eq_append (i l : Half) (pay : List Byte) (t : Option Half) :
    frameBytes i l pay t = hdr i l ++ (pay ++ t.elim [] trl) := by
  cases t <;> simp [frameBytes]

theorem frameBytes_take_four (i l : Half) (pay : List Byte) (t : Option Half) : (frameBytes i l pay t).take 4 = hdr i l := by
  rw [frameBytes_eq_append]
  rfl

theorem frameBytes_drop_four (i l : Half) (pay : List Byte) (t : Option Half) :
    (frameBytes i l pay t).drop 4 = pay ++ t.elim [] trl := by
  rw [frameBytes_eq_append]
  rfl

/-- What follows the payload is the trailer (R52). -/
theorem frameBytes_drop_payload (i : Half) {l : Half} {pay : List Byte} (t : Option Half) (h : pay.length = l.toNat) :
    (frameBytes i l pay t).drop (4 + l.toNat) = t.elim [] trl := by
  rw [← List.drop_drop, frameBytes_drop_four, List.drop_left' h]

/-- Settles O12: the frame's three parts, each at its offset. -/
theorem frameLayoutByOffset : Obligations.FrameLayoutByOffset := by
  refine ⟨hdr_map_toNat, trl_map_toNat, fun i l pay t h => ⟨?_, ?_, ?_, ?_⟩⟩
  · rw [frameBytes_length, h]
  · rw [frameBytes_take_four, hdr_map_toNat]
  · rw [frameBytes_drop_four, List.take_left' h]
  · rw [frameBytes_drop_payload i t h]
    cases t with
    | none => rfl
    | some v => exact trl_map_toNat v

/-- Reading a frame back gives the Block it serialises (R53). -/
theorem readFrame_frameBytes (i : Half) {l : Half} {pay : List Byte} (t : Option Half) (h : pay.length = l.toNat) :
    readFrame (frameBytes i l pay t) = some ⟨i, l, pay, t⟩ := by
  rw [frameBytes_eq_append]
  cases t with
  | none => simp [hdr, readFrame, half_hi8_lo8, ← h]
  | some v => simp [hdr, readFrame, half_hi8_lo8, ← h, trl]

/-- A 16-bit value from its two bytes, as a number. -/
theorem hi8_lo8_toNat (v : Half) : (hi8 v).toNat * 256 + (lo8 v).toNat = v.toNat := by
  rw [hi8_toNat, lo8_toNat]; omega

/-- The trailer's bytes, at the two offsets after the payload (R51, R53). -/
theorem frameBytes_getD_trailer (i : Half) {l : Half} {pay : List Byte} (v : Half) (h : pay.length = l.toNat) :
    (frameBytes i l pay (some v)).getD (4 + l.toNat) 0#8 = lo8 v ∧
    (frameBytes i l pay (some v)).getD (4 + l.toNat + 1) 0#8 = hi8 v := by
  have hd : (frameBytes i l pay (some v)).drop (4 + l.toNat) = [lo8 v, hi8 v] := frameBytes_drop_payload i (some v) h
  constructor
  · simpa [List.getD_eq_getElem?_getD] using congrArg (·.getD 0 0#8) hd
  · simpa [List.getD_eq_getElem?_getD] using congrArg (·.getD 1 0#8) hd

/-- Settles O13: the Block is read back, and each formula of R53 reads its own bytes. -/
theorem readFrameInvertsFrame : Obligations.ReadFrameInvertsFrame := by
  refine fun i l pay t h => ⟨readFrame_frameBytes i t h, ?_, ?_, ?_, ?_⟩
  · rw [frameBytes_eq_append]
    exact hi8_lo8_toNat i
  · rw [frameBytes_eq_append]
    exact hi8_lo8_toNat l
  · rw [frameBytes_length, h]
    cases t <;> simp
  · rintro v rfl
    obtain ⟨hlo, hhi⟩ := frameBytes_getD_trailer i v h
    rw [hlo, hhi, ← hi8_lo8_toNat v]
    omega

end Sys2Proof
end

section
/-! PROOFS. The pseudo-instructions (spec/30_encoding.md R62): what their command sequences do where no command faults. -/

namespace Sys2Proof

open Sys2Proof.Machine

/-- The first instruction of a sequence, where its rule completes. -/
theorem execAll_cons_ok {i : Instr} {is : List Instr} {s u : State} (hi : i ≠ .reset) (hf : s.fault = 0x00#8)
    (hr : ruleOf i s = .ok u) : execAll (i :: is) s = execAll is { u with pc := s.pc + 1 } :=
  execAll_cons (exec_ok hi hf hr)

/-! ### CHECKSUM -/

/-- CHECKSUM leaves its range in ADDR and CNT and the range's checksum in CRC. -/
theorem execAll_checksum {s : State} {a n : Half} (seed : Half) (hf : s.fault = 0x00#8) (h : rangeInBuf a.toNat n.toNat) :
    execAll (Pseudo.checksum a n seed).expand s =
      .next { s with addr := a, cnt := n, crc := crcBuf seed (bytesAt s a.toNat n.toNat), pc := s.pc + 3 } := by
  let s1 : State := { s with addr := a, pc := s.pc + 1 }
  let s2 : State := { s1 with cnt := n, pc := s.pc + 2 }
  have hcsum : ruleOf (.csum seed) s2 = .ok { s2 with crc := checksum (readSlice s2 a.toNat n.toNat) seed } :=
    checksumRange_eq_ok.mpr ⟨h, rfl⟩
  rw [bytesAt_eq_readSlice]
  calc execAll [.seta a, .setn n, .csum seed] s
    _ = execAll [.setn n, .csum seed] s1 := execAll_cons_ok (i := .seta a) nofun hf rfl
    _ = execAll [.csum seed] s2 := execAll_cons_ok (i := .setn n) (s := s1) nofun hf rfl
    _ = _ := execAll_cons_ok (i := .csum seed) nofun hf hcsum

/-! ### LOAD -/

/-- The memory with bytes written one after the other from an address on. -/
def insertBytes : Memory → Nat → List Byte → Memory
  | m, _, [] => m
  | m, a, v :: vs => insertBytes (Memory.insert m a v) (a + 1) vs

/-- A read after the bytes were written: theirs inside their range, the old one outside. -/
theorem readByte_insertBytes (s : State) (a : Nat) (vs : List Byte) (x : Nat) :
    readByte { s with buf := insertBytes s.buf a vs } x =
      if a ≤ x ∧ x < a + vs.length then vs.getD (x - a) 0#8 else readByte s x := by
  induction vs generalizing s a with
  | nil => rw [if_neg (by simp)]; rfl
  | cons v vs ih =>
    have hstep : readByte { s with buf := insertBytes s.buf a (v :: vs) } x =
        if a + 1 ≤ x ∧ x < a + 1 + vs.length then vs.getD (x - (a + 1)) 0#8 else if x = a then v else readByte s x := by
      rw [← readByte_writeByte]
      exact ih (writeByte a v s) (a + 1)
    rw [hstep, List.length_cons]
    rcases Nat.lt_trichotomy x a with hx | rfl | hx
    · rw [if_neg (by omega), if_neg (by omega), if_neg (by omega)]
    · rw [if_neg (by omega), if_pos rfl, if_pos (by omega), Nat.sub_self]
      rfl
    · rw [if_neg hx.ne', show x - a = x - (a + 1) + 1 by omega, List.getD_cons_succ]
      exact if_congr (by omega) rfl rfl

/-- A row of BSTB commands inside BUF stores its bytes from ADDR on and leaves ADDR past the last (R93). -/
theorem execAll_map_bstb (vs : List Byte) {s : State} (hf : s.fault = 0x00#8) (h : rangeInBuf s.addr.toNat vs.length) :
    execAll (vs.map .bstb) s = .next { s with
      buf := insertBytes s.buf s.addr.toNat vs, addr := s.addr + BitVec.ofNat 16 vs.length, pc := s.pc + vs.length } := by
  induction vs generalizing s with
  | nil => simp [insertBytes]
  | cons v vs ih =>
    have hb : s.addr.toNat + (vs.length + 1) ≤ 0xF000 := h
    have hin : s.addr.toNat < 0xF000 := by omega
    have hnext : (s.addr + 1#16).toNat = s.addr.toNat + 1 := by simp; omega
    have hsum : s.addr + 1#16 + BitVec.ofNat 16 vs.length = s.addr + BitVec.ofNat 16 (vs.length + 1) := by
      rw [BitVec.add_assoc, Nat.add_comm, BitVec.ofNat_add]
    let u : State := { writeByte s.addr.toNat v s with addr := s.addr + 1#16, pc := s.pc + 1 }
    have hu : u.addr.toNat + vs.length ≤ 0xF000 := by
      rw [hnext]
      omega
    calc execAll (.bstb v :: vs.map .bstb) s
      _ = execAll (vs.map .bstb) u := execAll_cons_ok (i := .bstb v) nofun hf (storePostIncrement_ok hin)
      _ = .next { u with
            buf := insertBytes u.buf u.addr.toNat vs, addr := u.addr + BitVec.ofNat 16 vs.length,
            pc := u.pc + vs.length } := ih hf hu
      _ = _ := by
        simp only [u, writeByte_buf, hnext, hsum, insertBytes, List.length_cons, Nat.add_assoc, Nat.add_comm 1]
        rfl

/-- LOAD stores its bytes from its address on and leaves ADDR past the last. -/
theorem execAll_load {s : State} {a : Half} (b : Byte) {bs : List Byte} (hf : s.fault = 0x00#8)
    (h : rangeInBuf a.toNat (b :: bs).length) :
    execAll (Pseudo.load a b bs).expand s = .next { s with
      buf := insertBytes s.buf a.toNat (b :: bs), addr := a + BitVec.ofNat 16 (bs.length + 1),
      pc := s.pc + (bs.length + 2) } := by
  let u : State := { s with addr := a, pc := s.pc + 1 }
  calc execAll (.seta a :: (b :: bs).map .bstb) s
    _ = execAll ((b :: bs).map .bstb) u := execAll_cons_ok (i := .seta a) nofun hf rfl
    _ = _ := execAll_map_bstb (s := u) (b :: bs) hf h
    _ = _ := by
      simp only [u, List.length_cons]
      congr 2
      omega

/-! ### BLOCK and BLOCKT -/

/-- The first three commands of BLOCK and BLOCKT put the Block's index, address and length in the registers. -/
theorem execAll_setBlock {s : State} (i a l : Half) (is : List Instr) (hf : s.fault = 0x00#8) :
    execAll (.seti i :: .seta a :: .setl l :: is) s =
      execAll is { s with idx := i, addr := a, len := l, pc := s.pc + 3 } := by
  let s1 : State := { s with idx := i, pc := s.pc + 1 }
  let s2 : State := { s1 with addr := a, pc := s.pc + 2 }
  calc execAll (.seti i :: .seta a :: .setl l :: is) s
    _ = execAll (.seta a :: .setl l :: is) s1 := execAll_cons_ok (i := .seti i) nofun hf rfl
    _ = execAll (.setl l :: is) s2 := execAll_cons_ok (i := .seta a) (s := s1) nofun hf rfl
    _ = _ := execAll_cons_ok (i := .setl l) (s := s2) nofun hf rfl

/-- FRAME alone, where both its checks pass (R106). -/
theorem execAll_frame {s : State} (hf : s.fault = 0x00#8) (hl : s.len.toNat ≤ Config.maxBlock)
    (h : rangeInBuf s.addr.toNat s.len.toNat) :
    execAll [.frame] s = .next { composeFrame s with pc := s.pc + 1 } :=
  execAll_cons_ok (i := .frame) nofun hf (frameRule_eq_ok.mpr ⟨hl, h, rfl⟩)

/-- BLOCK emits its Block without a trailer. -/
theorem execAll_block {s : State} (i : Half) {a l : Half} (hf : s.fault = 0x00#8) (hl : l.toNat ≤ Config.maxBlock)
    (h : rangeInBuf a.toNat l.toNat) :
    execAll (Pseudo.block i a l).expand s = .next { s with
      idx := i, addr := a, len := l, ten := false, out := s.out ++ [hdr i l ++ bytesAt s a.toNat l.toNat],
      pc := s.pc + 5 } := by
  let u : State := { s with idx := i, addr := a, len := l, pc := s.pc + 3 }
  let v : State := { u with ten := false, pc := s.pc + 4 }
  rw [bytesAt_eq_readSlice]
  calc execAll [.seti i, .seta a, .setl l, .trln, .frame] s
    _ = execAll [.trln, .frame] u := execAll_setBlock i a l _ hf
    _ = execAll [.frame] v := execAll_cons_ok (i := .trln) (s := u) nofun hf rfl
    _ = _ := execAll_frame (s := v) hf hl h

/-- BLOCKT emits its Block with its trailer. -/
theorem execAll_blockt {s : State} (i : Half) {a l : Half} (t : Half) (hf : s.fault = 0x00#8)
    (hl : l.toNat ≤ Config.maxBlock) (h : rangeInBuf a.toNat l.toNat) :
    execAll (Pseudo.blockt i a l t).expand s = .next { s with
      idx := i, addr := a, len := l, trl := t, ten := true,
      out := s.out ++ [hdr i l ++ bytesAt s a.toNat l.toNat ++ trl t], pc := s.pc + 5 } := by
  let u : State := { s with idx := i, addr := a, len := l, pc := s.pc + 3 }
  let v : State := { u with trl := t, ten := true, pc := s.pc + 4 }
  rw [bytesAt_eq_readSlice]
  calc execAll [.seti i, .seta a, .setl l, .trli t, .frame] s
    _ = execAll [.trli t, .frame] u := execAll_setBlock i a l _ hf
    _ = execAll [.frame] v := execAll_cons_ok (i := .trli t) (s := u) nofun hf rfl
    _ = _ := execAll_frame (s := v) hf hl h

/-! ### BEGIN -/

/-- The bits of PROF for a profile (R117). -/
theorem profOf_eq (p : Profile) : profOf p = if p = .p0 then 0b10#2 else 0b11#2 := by cases p <;> decide

/-- BEGIN selects its profile and fills the image with the erased value. -/
theorem execAll_begin {s : State} (p : Profile) (hf : s.fault = 0x00#8) :
    execAll (Pseudo.begin p).expand s = .next { s with
      prof := profOf p, buf := Memory.fill s.buf (Config.imgSize p) Config.erased, pc := s.pc + 2 } := by
  let u : State := { s with prof := profOf p, pc := s.pc + 1 }
  calc execAll [.prof p, .bfill] s
    _ = execAll [.bfill] u := execAll_cons_ok (i := .prof p) nofun hf rfl
    _ = _ := execAll_cons (exec_bfill_selected (s := u) hf (selectedProfile_profOf p))

/-- Settles O28: each pseudo-instruction by its own lemma; LOAD and BEGIN with the memory that their bytes leave. -/
theorem pseudoInstructionsDoWhatTheyStandFor : Obligations.PseudoInstructionsDoWhatTheyStandFor := by
  refine ⟨fun s a n seed => execAll_checksum seed, fun s a b bs hf h => ?load, fun s i a l => execAll_block i,
    fun s i a l t => execAll_blockt i t, fun s p hf => ?begin⟩
  case load => exact ⟨_, execAll_load b hf h, readByte_insertBytes s a.toNat (b :: bs)⟩
  case begin =>
    rw [← profOf_eq]
    exact ⟨_, execAll_begin p hf, fun x => readByte_fillBytes s (Config.imgSize p) x Config.erased⟩

end Sys2Proof
end

section
/-! PROOFS. The checksum (spec/40_crc.md): the bit step by numbers and by bits, the laws that follow from it, and the five checksum commands with the other register loads. -/

namespace Sys2Proof

open Sys2Proof.Machine

/-! ### The bit step -/

/-- The bit step as one equation: shift, OR the bit in, XOR the polynomial when the top bit was 1 (R70). -/
theorem crcBit_eq (c : Half) (b : Bool) :
    crcBit c b = ((c <<< 1) ||| (BitVec.ofBool b).setWidth 16) ^^^ (if c.getLsbD 15 then Config.poly else 0#16) := by
  unfold crcBit
  split
  · rfl
  · exact BitVec.xor_zero.symm

/-- The bit shifted out is 1 exactly when the register is at least 2^15. -/
theorem getLsbD_fifteen (c : Half) : c.getLsbD 15 = decide (32768 ≤ c.toNat) := by
  rw [← BitVec.msb_eq_getLsbD_last, BitVec.msb_eq_decide]

/-- The bit step on numbers (R70). -/
theorem toNat_crcBit (c : Half) (b : Bool) :
    (crcBit c b).toNat = ((c.toNat * 2) % 65536 ||| b.toNat) ^^^ (if 32768 ≤ c.toNat then 0x1021 else 0) := by
  have hin : ((BitVec.ofBool b).setWidth 16).toNat = b.toNat := by cases b <;> rfl
  have hshift : (c <<< 1).toNat = (c.toNat * 2) % 65536 := by rw [BitVec.toNat_shiftLeft, Nat.shiftLeft_eq]
  rw [crcBit_eq, getLsbD_fifteen, BitVec.toNat_xor, BitVec.toNat_or, hin, hshift]
  by_cases h : 32768 ≤ c.toNat <;> simp [h]

/-- While the top bit is 0, the bit step doubles the register and adds the bit. -/
theorem toNat_crcBit_of_lt {c : Half} (h : c.toNat < 32768) (b : Bool) : (crcBit c b).toNat = 2 * c.toNat + b.toNat := by
  rw [toNat_crcBit, if_neg h.not_ge, Nat.xor_zero, Nat.mod_eq_of_lt (by omega), Nat.mul_comm,
    ← Nat.two_pow_add_eq_or_of_lt (i := 1) (Bool.toNat_lt b)]

/-- The bit step bit by bit: the input at bit 0, each other bit from the one below it, inverted at the polynomial's bits
when a 1 was shifted out (R70). -/
theorem getLsbD_crcBit (c : Half) (b : Bool) {i : Nat} (h : i < 16) :
    (crcBit c b).getLsbD i =
      Bool.xor (if i = 0 then b else c.getLsbD (i - 1)) (Config.poly.getLsbD i && c.getLsbD 15) := by
  have htop : (if c.getLsbD 15 then Config.poly else 0#16).getLsbD i = (Config.poly.getLsbD i && c.getLsbD 15) := by
    cases c.getLsbD 15 <;> simp
  rw [crcBit_eq, BitVec.getLsbD_xor, htop]
  cases i with
  | zero => simp
  | succ i =>
    have hi : i < 16 := by omega
    simp [h, hi, BitVec.getLsbD_eq_getElem]

/-- The polynomial 0x1021 has the bits 0, 5 and 12 (R4). -/
theorem getLsbD_poly {i : Nat} (h : i < 16) : Config.poly.getLsbD i = decide (i = 0 ∨ i = 5 ∨ i = 12) := by
  interval_cases i <;> rfl

/-- Settles O7: the step on numbers and on bits, and five values. -/
theorem bitStepBitByBit : Obligations.BitStepBitByBit := by
  refine ⟨toNat_crcBit, fun c b => ⟨?_, ?_, ?_, fun i h0 h16 h5 h12 => ?_⟩, by decide, by decide, by decide, by decide,
    by decide⟩
  · exact getLsbD_crcBit c b (i := 0) (by decide)
  · exact getLsbD_crcBit c b (i := 5) (by decide)
  · exact getLsbD_crcBit c b (i := 12) (by decide)
  · rw [getLsbD_crcBit c b h16, if_neg h0.ne', getLsbD_poly h16, decide_eq_false (by omega), Bool.false_and,
      Bool.xor_false]

/-! ### Linearity -/

/-- The bit step is linear over XOR. -/
theorem crcBit_xor_crcBit (a b : Half) (p q : Bool) : crcBit a p ^^^ crcBit b q = crcBit (a ^^^ b) (Bool.xor p q) := by
  apply BitVec.eq_of_getLsbD_eq
  intro i hi
  simp only [BitVec.getLsbD_xor, getLsbD_crcBit _ _ hi, Bool.and_xor_distrib_left]
  split <;> simp only [Bool.xor_assoc, Bool.xor_left_comm]

/-- A fold of steps that are linear over XOR is linear over XOR, for lists of equal length. -/
theorem foldl_xor_foldl {α : Type} {f : Half → α → Half} {op : α → α → α}
    (hf : ∀ a b v w, f a v ^^^ f b w = f (a ^^^ b) (op v w)) (a b : Half) :
    ∀ {x y : List α}, x.length = y.length → x.foldl f a ^^^ y.foldl f b = (List.zipWith op x y).foldl f (a ^^^ b) := by
  intro x
  induction x generalizing a b with
  | nil =>
    intro y h
    obtain rfl := List.length_eq_zero_iff.mp h.symm
    rfl
  | cons v x ih =>
    rintro (_ | ⟨w, y⟩) h
    · cases h
    · rw [List.zipWith_cons_cons, List.foldl_cons, List.foldl_cons, List.foldl_cons, ← hf]
      exact ih _ _ (Nat.succ.inj h)

/-- The byte step is linear over XOR. -/
theorem crcByte_xor_crcByte (a b : Half) (v w : Byte) : crcByte a v ^^^ crcByte b w = crcByte (a ^^^ b) (v ^^^ w) := by
  have hbits : bitsOf (v ^^^ w) = List.zipWith Bool.xor (bitsOf v) (bitsOf w) := by simp [bitsOf]
  rw [crcByte_eq, crcByte_eq, crcByte_eq, hbits]
  exact foldl_xor_foldl crcBit_xor_crcBit a b rfl

/-- The buffer step is linear over XOR, for lists of equal length (R82 (d)). -/
theorem crcBuf_xor_crcBuf (a b : Half) {x y : List Byte} (h : x.length = y.length) :
    crcBuf a x ^^^ crcBuf b y = crcBuf (a ^^^ b) (List.zipWith (· ^^^ ·) x y) := foldl_xor_foldl crcByte_xor_crcByte a b h

/-- Settles O8: the bit step is linear, so is the fold over a byte's bits, and so is the fold over the bytes. -/
theorem checksumIsLinear : Obligations.ChecksumIsLinear := fun a b _ _ => crcBuf_xor_crcBuf a b

/-! ### Laws of the buffer step -/

/-- The checksum of two buffers in a row continues from the first's (R82 (b)). -/
theorem crcBuf_append (c : Half) (x y : List Byte) : crcBuf c (x ++ y) = crcBuf (crcBuf c x) y := List.foldl_append

/-- While no 1 is shifted out, bit steps append the bits to the register as binary digits. -/
theorem toNat_foldl_crcBit (bs : List Bool) {c : Half} (h : (c.toNat + 1) * 2 ^ bs.length ≤ 65536) :
    (bs.foldl crcBit c).toNat = bs.foldl (fun n b => 2 * n + b.toNat) c.toNat := by
  induction bs generalizing c with
  | nil => rfl
  | cons b bs ih =>
    rw [List.length_cons, Nat.pow_succ'] at h
    have hc : (c.toNat + 1) * 2 ≤ 65536 :=
      le_trans (Nat.mul_le_mul_left _ (Nat.le_mul_of_pos_right 2 (Nat.two_pow_pos _))) h
    have hstep : (crcBit c b).toNat = 2 * c.toNat + b.toNat := toNat_crcBit_of_lt (by omega) b
    have hnext : (crcBit c b).toNat + 1 ≤ (c.toNat + 1) * 2 := by
      have := Bool.toNat_lt b
      omega
    rw [List.foldl_cons, List.foldl_cons, ← hstep]
    refine ih (le_trans (Nat.mul_le_mul_right _ hnext) ?_)
    rwa [Nat.mul_assoc]

/-- A byte's eight bits, most significant first, are its binary digits. -/
theorem foldl_bitsOf (n : Nat) (v : Byte) :
    (bitsOf v).foldl (fun n b => 2 * n + b.toNat) n = n * 256 + v.toNat := by
  have hbit (i : Nat) : (v.getLsbD i).toNat = v.toNat / 2 ^ i % 2 := Nat.toNat_testBit ..
  have := v.isLt
  simp only [bitsOf, List.foldl_cons, List.foldl_nil, hbit]
  omega

/-- A byte step shifts a register below 256 up by a byte and puts the byte below it. -/
theorem toNat_crcByte {c : Half} (h : c.toNat < 256) (v : Byte) : (crcByte c v).toNat = c.toNat * 256 + v.toNat := by
  have hlen : (bitsOf v).length = 8 := rfl
  rw [crcByte_eq, toNat_foldl_crcBit _ (by rw [hlen]; omega), foldl_bitsOf]

/-- With a zero register, zero bytes change nothing (R82 (f)). -/
theorem crcBuf_zero_replicate (n : Nat) : crcBuf 0#16 (List.replicate n 0#8) = 0#16 := by
  have hbyte : crcByte 0#16 0#8 = 0#16 := by decide +kernel
  induction n with
  | zero => rfl
  | succ n ih => rw [List.replicate_succ, crcBuf_cons, hbyte, ih]

/-- Settles O9: folds split at an append, and with a zero register the first two bytes fill it. -/
theorem checksumLaws : Obligations.ChecksumLaws := by
  have hbyte (v : Byte) : (crcByte 0#16 v).toNat = v.toNat := (toNat_crcByte (by decide) v).trans (Nat.zero_add _)
  refine ⟨fun c => rfl, crcBuf_append, fun c v => rfl, hbyte, fun v w => ?_, fun n x => ?_, by decide +kernel⟩
  · calc (crcByte (crcByte 0#16 v) w).toNat
      _ = (crcByte 0#16 v).toNat * 256 + w.toNat := toNat_crcByte (by rw [hbyte]; exact v.isLt) w
      _ = v.toNat * 256 + w.toNat := by rw [hbyte]
  · rw [crcBuf_append, crcBuf_zero_replicate]

/-! ### The catalogue algorithm (PRESUMED, notes/assumptions/1.md) -/

/-- A catalogue step is the machine's step for a 0, with the polynomial for a data bit 1. -/
theorem ccittBit_eq_xor (c : Half) (b : Bool) : ccittBit c b = crcBit c false ^^^ (if b then Config.poly else 0#16) := by
  have hzero : crcBit c false = (c <<< 1) ^^^ (if c.getLsbD 15 then Config.poly else 0#16) := by
    rw [crcBit_eq]
    exact congrArg (· ^^^ _) BitVec.or_zero
  rw [hzero, ccittBit]
  cases c.getLsbD 15 <;> cases b <;> simp

/-- The register after two zero bytes, which flush the last 16 data bits out of it. -/
def crcFlush (c : Half) : Half := crcBuf c [0x00#8, 0x00#8]

/-- The flush takes a data bit from bit 0 past the top bit, where it becomes the polynomial. -/
theorem crcFlush_ofBool (b : Bool) : crcFlush ((BitVec.ofBool b).setWidth 16) = if b then Config.poly else 0#16 := by
  cases b <;> decide +kernel

/-- The flush is sixteen steps for a 0, so it commutes with one. -/
theorem crcFlush_crcBit_false (c : Half) : crcFlush (crcBit c false) = crcBit (crcFlush c) false := rfl

/-- A bit step before the flush is a catalogue step after it. -/
theorem crcFlush_crcBit (c : Half) (b : Bool) : crcFlush (crcBit c b) = ccittBit (crcFlush c) b := by
  calc crcFlush (crcBit c b)
    _ = crcFlush (crcBit c false ^^^ (BitVec.ofBool b).setWidth 16) := by rw [← crcBit_eq_xor]
    _ = crcFlush (crcBit c false) ^^^ crcFlush ((BitVec.ofBool b).setWidth 16) :=
      (crcBuf_xor_crcBuf _ _ (x := [0x00#8, 0x00#8]) (y := [0x00#8, 0x00#8]) rfl).symm
    _ = crcBit (crcFlush c) false ^^^ (if b then Config.poly else 0#16) := by
      rw [crcFlush_crcBit_false, crcFlush_ofBool]
    _ = ccittBit (crcFlush c) b := (ccittBit_eq_xor ..).symm

/-- Bit steps before the flush are catalogue steps after it. -/
theorem crcFlush_foldl_crcBit (bs : List Bool) (c : Half) :
    crcFlush (bs.foldl crcBit c) = bs.foldl ccittBit (crcFlush c) := by
  induction bs generalizing c with
  | nil => rfl
  | cons b bs ih => rw [List.foldl_cons, List.foldl_cons, ih, crcFlush_crcBit]

@[simp] theorem ccittBuf_cons (c : Half) (v : Byte) (m : List Byte) :
    ccittBuf c (v :: m) = ccittBuf ((bitsOf v).foldl ccittBit c) m := rfl

/-- A buffer before the flush is the catalogue algorithm over it after the flush. -/
theorem crcFlush_crcBuf (c : Half) (m : List Byte) : crcFlush (crcBuf c m) = ccittBuf (crcFlush c) m := by
  induction m generalizing c with
  | nil => rfl
  | cons v m ih => rw [crcBuf_cons, ih, crcByte_eq, crcFlush_foldl_crcBit, ccittBuf_cons]

/-- Settles O10: the flush commutes with each step, and from 0xFFFF it gives 0x1D0F. -/
theorem checksumWithTwoZeroBytesIsCcitt : Obligations.ChecksumWithTwoZeroBytesIsCcitt := by
  have hall (c : Half) (m : List Byte) : crcBuf c (m ++ [0x00#8, 0x00#8]) = ccittBuf (crcFlush c) m :=
    (crcBuf_append ..).trans (crcFlush_crcBuf c m)
  have hinit : crcFlush 0xFFFF#16 = 0x1D0F#16 := by decide +kernel
  refine ⟨hall, fun m => ?_⟩
  rw [hall, hinit]

/-- Settles O11, by running both algorithms. -/
theorem discriminatingChecksumValues : Obligations.DiscriminatingChecksumValues := by
  unfold Obligations.DiscriminatingChecksumValues
  decide +kernel

/-! ### The words of a form -/

/-- Form `N`: the immediate 0 alone is legal (R56). -/
theorem encodedWithoutOperand (o : Op) {i : Instr} (ho : o.form = .n) (hi : ∀ imm, o.withImm imm = i) :
    EncodedWithoutOperand o.code i := by
  intro imm
  have hrange : imm.toNat < 2 ^ o.form.bits ↔ imm = 0#16 := by
    rw [ho]
    exact Nat.lt_one_iff.trans (BitVec.toNat_inj (y := 0#16))
  simp only [decode_packWord_range, hrange, hi]

/-- Form `I1`: the immediates 0 and 1 are legal (R56). -/
theorem encodedWithBit (o : Op) {i : Bool → Instr} (ho : o.form = .i1) (hi : ∀ imm, o.withImm imm = i (imm.getLsbD 0)) :
    EncodedWithBit o.code i := by
  intro imm
  have hrange : imm.toNat < 2 ^ o.form.bits ↔ imm.toNat ≤ 1 := by
    rw [ho]
    exact Nat.lt_succ_iff
  simp only [decode_packWord_range, hrange, hi]

/-- Form `I8`: the immediates up to 0xFF are legal (R56). -/
theorem encodedWithByte (o : Op) {i : Byte → Instr} (ho : o.form = .i8)
    (hi : ∀ imm, o.withImm imm = i (imm.extractLsb' 0 8)) : EncodedWithByte o.code i := by
  intro imm
  have hrange : imm.toNat < 2 ^ o.form.bits ↔ imm.toNat ≤ 0xFF := by
    rw [ho]
    exact Nat.lt_succ_iff
  simp only [decode_packWord_range, hrange, hi]

/-- Form `I16`: every immediate is legal (R56). -/
theorem encodedWithHalf (o : Op) {i : Half → Instr} (ho : o.form = .i16) (hi : ∀ imm, o.withImm imm = i imm) :
    EncodedWithHalf o.code i := by
  intro imm
  have hrange : imm.toNat < 2 ^ o.form.bits := by
    rw [ho]
    exact imm.isLt
  rw [decode_packWord_range, if_pos hrange, hi]

/-! ### The commands without a fault -/

/-- Settles O16: the five commands have form `I16`, and their rules always complete. -/
theorem registerLoads : Obligations.RegisterLoads := by
  refine ⟨encodedWithHalf .cseed rfl fun _ => rfl, encodedWithHalf .seta rfl fun _ => rfl,
    encodedWithHalf .setn rfl fun _ => rfl, encodedWithHalf .seti rfl fun _ => rfl,
    encodedWithHalf .setl rfl fun _ => rfl, fun v s hf => ⟨?_, ?_, ?_, ?_, ?_⟩⟩
  · exact exec_ok (i := .cseed v) nofun hf rfl
  · exact exec_ok (i := .seta v) nofun hf rfl
  · exact exec_ok (i := .setn v) nofun hf rfl
  · exact exec_ok (i := .seti v) nofun hf rfl
  · exact exec_ok (i := .setl v) nofun hf rfl

/-- Settles O17: CBIT has form `I1`, and its rule always completes. -/
theorem cbitIsOneBitStep : Obligations.CbitIsOneBitStep :=
  ⟨encodedWithBit .cbit rfl fun _ => rfl, fun b _ hf => exec_ok (i := .cbit b) nofun hf rfl⟩

/-- A row of CBIT commands takes its bits in order (R77). -/
theorem execAll_map_cbit (bs : List Bool) {s : State} (hf : s.fault = 0x00#8) :
    execAll (bs.map .cbit) s = .next { s with crc := bs.foldl crcBit s.crc, pc := s.pc + bs.length } := by
  induction bs generalizing s with
  | nil => rfl
  | cons b bs ih =>
    let u : State := { s with crc := crcBit s.crc b, pc := s.pc + 1 }
    calc execAll (.cbit b :: bs.map .cbit) s
      _ = execAll (bs.map .cbit) u := execAll_cons_ok (i := .cbit b) nofun hf rfl
      _ = .next { u with crc := bs.foldl crcBit u.crc, pc := u.pc + bs.length } := ih (s := u) hf
      _ = _ := by
        simp only [u, List.foldl_cons, List.length_cons, Nat.add_assoc, Nat.add_comm 1]

/-- Settles O18: CBYTE's rule always completes, and eight CBITs fold over the same bits. -/
theorem cbyteIsEightBitSteps : Obligations.CbyteIsEightBitSteps :=
  ⟨encodedWithByte .cbyte rfl fun _ => rfl, fun v _ hf =>
    ⟨exec_ok (i := .cbyte v) nofun hf rfl, execAll_map_cbit (bitsOf v) hf⟩⟩

/-! ### CBUF and CSUM -/

/-- The rule of CBUF and CSUM over a range in BUF (R79, R80). -/
theorem checksumRange_ok {s : State} (seed : Half) (h : rangeInBuf s.addr.toNat s.cnt.toNat) :
    checksumRange seed s = .ok { s with crc := crcBuf seed (bytesAt s s.addr.toNat s.cnt.toNat) } := by
  rw [bytesAt_eq_readSlice]
  exact checksumRange_eq_ok.mpr ⟨h, rfl⟩

/-- The rule of CBUF and CSUM over a range that leaves BUF (R79, R80). -/
theorem checksumRange_error {s : State} (seed : Half) (h : Config.bufSize < s.addr.toNat + s.cnt.toNat) :
    checksumRange seed s = .error .bounds := checksumRange_eq_error.mpr ⟨h.not_ge, rfl⟩

/-- CBUF over a range in BUF (R79). -/
theorem exec_cbuf {s : State} (hf : s.fault = 0x00#8) (h : rangeInBuf s.addr.toNat s.cnt.toNat) :
    exec .cbuf s = .next { s with crc := crcBuf s.crc (bytesAt s s.addr.toNat s.cnt.toNat), pc := s.pc + 1 } :=
  exec_ok (i := .cbuf) nofun hf (checksumRange_ok s.crc h)

/-- Two adjacent ranges are the range of both. -/
theorem bytesAt_add (s : State) (a m n : Nat) : bytesAt s a (m + n) = bytesAt s a m ++ bytesAt s (a + m) n := by
  simp only [bytesAt, List.range_add, List.map_append, List.map_map, Function.comp_def, Nat.add_assoc]

/-- SETA, SETN and CBUF checksum the named range from the current register. -/
theorem execAll_setRange_cbuf {s : State} {a n : Half} (is : List Instr) (hf : s.fault = 0x00#8)
    (h : rangeInBuf a.toNat n.toNat) :
    execAll (.seta a :: .setn n :: .cbuf :: is) s =
      execAll is { s with addr := a, cnt := n, crc := crcBuf s.crc (bytesAt s a.toNat n.toNat), pc := s.pc + 3 } := by
  let s1 : State := { s with addr := a, pc := s.pc + 1 }
  let s2 : State := { s1 with cnt := n, pc := s.pc + 2 }
  calc execAll (.seta a :: .setn n :: .cbuf :: is) s
    _ = execAll (.setn n :: .cbuf :: is) s1 := execAll_cons_ok (i := .seta a) nofun hf rfl
    _ = execAll (.cbuf :: is) s2 := execAll_cons_ok (i := .setn n) (s := s1) nofun hf rfl
    _ = _ := execAll_cons (exec_cbuf (s := s2) hf h)

/-- CBUF over two adjacent ranges gives the checksum of their union (R79, R82 (b)). -/
theorem execAll_cbuf_adjacent {s : State} {a m n : Half} (hf : s.fault = 0x00#8)
    (h : a.toNat + m.toNat + n.toNat ≤ 0xF000) :
    execAll [.seta a, .setn m, .cbuf, .seta (a + m), .setn n, .cbuf] s =
      .next { s with
        addr := a + m, cnt := n, crc := crcBuf s.crc (bytesAt s a.toNat (m.toNat + n.toNat)), pc := s.pc + 6 } := by
  have ham : (a + m).toNat = a.toNat + m.toNat := BitVec.toNat_add_of_lt (by omega)
  let t : State := { s with addr := a, cnt := m, crc := crcBuf s.crc (bytesAt s a.toNat m.toNat), pc := s.pc + 3 }
  calc execAll [.seta a, .setn m, .cbuf, .seta (a + m), .setn n, .cbuf] s
    _ = execAll [.seta (a + m), .setn n, .cbuf] t := execAll_setRange_cbuf _ hf (le_trans (Nat.le_add_right ..) h)
    _ = .next { t with
          addr := a + m, cnt := n, crc := crcBuf t.crc (bytesAt t (a + m).toNat n.toNat), pc := t.pc + 3 } :=
      execAll_setRange_cbuf (s := t) [] hf (by rw [ham]; exact h)
    _ = _ := by rw [ham, bytesAt_add, crcBuf_append]; rfl

/-- Settles O19: the range rule completes or raises BOUNDS, and the buffer step chains over adjacent ranges. -/
theorem cbufContinuesTheChecksum : Obligations.CbufContinuesTheChecksum :=
  ⟨encodedWithoutOperand .cbuf rfl fun _ => rfl, fun _ => exec_cbuf,
    fun s hf h => exec_error (i := .cbuf) nofun hf (checksumRange_error s.crc h), fun _ _ _ _ => execAll_cbuf_adjacent⟩

/-- CSEED then CBUF, over a range in BUF (R76, R79). -/
theorem execAll_cseed_cbuf {s : State} (seed : Half) (hf : s.fault = 0x00#8)
    (h : rangeInBuf s.addr.toNat s.cnt.toNat) :
    execAll [.cseed seed, .cbuf] s =
      .next { s with crc := crcBuf seed (bytesAt s s.addr.toNat s.cnt.toNat), pc := s.pc + 2 } := by
  let u : State := { s with crc := seed, pc := s.pc + 1 }
  calc execAll [.cseed seed, .cbuf] s
    _ = execAll [.cbuf] u := execAll_cons_ok (i := .cseed seed) nofun hf rfl
    _ = _ := execAll_cons (exec_cbuf (s := u) hf h)

/-- Settles O20: CSUM's rule is CBUF's with the seed in place of CRC, and CSEED puts the seed there. -/
theorem csumChecksumsFromTheSeed : Obligations.CsumChecksumsFromTheSeed := by
  refine ⟨encodedWithHalf .csum rfl fun _ => rfl, fun seed s hf h => ⟨?_, execAll_cseed_cbuf seed hf h⟩,
    fun seed s hf h => ?_⟩
  · exact exec_ok (i := .csum seed) nofun hf (checksumRange_ok seed h)
  · exact exec_error (i := .csum seed) nofun hf (checksumRange_error seed h)

end Sys2Proof
end

section
/-! PROOFS. The buffer commands (spec/41_buffer.md): BFILL, BSTB and BSENT, and the image that a record-based path leaves. -/

namespace Sys2Proof

open Sys2Proof.Machine

/-! ### BFILL and BSTB -/

/-- A rule that needs a profile raises PROFILE while `PROF.V` is 0 (R144). -/
theorem withProfile_unselected {k : Profile → State → State} {s : State} (h : s.prof.getLsbD 1 = false) :
    withProfile k s = .error .profile := withProfile_error ((selectedProfile_eq_none s.prof).mpr h)

/-- Settles O21: with a profile the rule is a fill of the image; without one it raises PROFILE. -/
theorem bfillErasesTheImage : Obligations.BfillErasesTheImage := by
  refine ⟨encodedWithoutOperand .bfill rfl fun _ => rfl, fun s S L N hf hS => ?selected, fun s hf hv => ?unselected⟩
  case selected =>
    obtain ⟨p, hp, rfl, -, -⟩ := profileSizes_selected hS
    exact ⟨_, exec_bfill_selected hf hp, fun a => readByte_fillBytes s (Config.imgSize p) a Config.erased⟩
  case unselected =>
    exact exec_error (i := .bfill) nofun hf (withProfile_unselected hv)

/-- Settles O22: the rule writes one byte and steps the address, or raises BOUNDS. -/
theorem bstbStoresAndStepsTheAddress : Obligations.BstbStoresAndStepsTheAddress := by
  refine ⟨encodedWithByte .bstb rfl fun _ => rfl, fun v s hf h => ⟨?noWrap, ?stored⟩, fun v s hf h => ?outside⟩
  case noWrap =>
    have hsum : s.addr.toNat + 1 < 2 ^ 16 := by omega
    exact BitVec.toNat_add_of_lt hsum
  case stored =>
    exact ⟨_, exec_ok (i := .bstb v) nofun hf (storePostIncrement_ok h), fun a => readByte_writeByte s s.addr.toNat a v⟩
  case outside => exact exec_error (i := .bstb v) nofun hf (storePostIncrement_error h.not_gt)

/-! ### BSENT -/

/-- Writing the byte that was written there last changes nothing. -/
theorem writeByte_of_lookup {s : State} {a : Nat} {v : Byte} (h : Memory.lookup s.buf a = some v) : writeByte a v s = s := by
  rw [writeByte, Memory.insert_of_lookup s.buf a v h]

/-- Both sentinel addresses hold the sentinel after the sentinel writes (R94). -/
theorem lookup_forceSentinel (p : Profile) (s : State) :
    Memory.lookup (forceSentinel p s).buf (Config.imgSize p - 2) = some Config.sentinel ∧
    Memory.lookup (forceSentinel p s).buf (Config.imgSize p - 1) = some Config.sentinel := by
  simp [forceSentinel, Memory.lookup_insert]

/-- Forcing the sentinel bytes again changes nothing (R94). -/
theorem forceSentinel_idem (p : Profile) (s : State) : forceSentinel p (forceSentinel p s) = forceSentinel p s := by
  obtain ⟨hlow, hhigh⟩ := lookup_forceSentinel p s
  calc forceSentinel p (forceSentinel p s)
    _ = writeByte (Config.imgSize p - 1) Config.sentinel (forceSentinel p s) :=
      congrArg (writeByte _ _) (writeByte_of_lookup hlow)
    _ = forceSentinel p s := writeByte_of_lookup hhigh

/-- A read after the sentinel writes, the two addresses counted from the image's end (R94). -/
theorem readByte_forceSentinel_fromEnd (p : Profile) (s : State) (a : Nat) :
    readByte (forceSentinel p s) a =
      if a + 2 = Config.imgSize p ∨ a + 1 = Config.imgSize p then 0x00#8 else readByte s a := by
  have hS := two_le_imgSize p
  rw [readByte_forceSentinel]
  by_cases hhigh : a + 1 = Config.imgSize p
  · rw [if_pos (by omega), if_pos (.inr hhigh)]
  · rw [if_neg (by omega)]
    exact if_congr (by omega) rfl rfl

/-- BSENT twice is BSENT once, but for pc (R94). -/
theorem execAll_bsent_bsent {s : State} {p : Profile} (hf : s.fault = 0x00#8) (hp : selectedProfile s.prof = some p) :
    execAll [.bsent, .bsent] s = .next { forceSentinel p s with pc := s.pc + 2 } := by
  let u : State := { forceSentinel p s with pc := s.pc + 1 }
  calc execAll [.bsent, .bsent] s
    _ = execAll [.bsent] u := execAll_cons (exec_bsent_selected hf hp)
    _ = .next { forceSentinel p (forceSentinel p s) with pc := s.pc + 2 } :=
      execAll_cons (exec_bsent_selected (s := u) hf hp)
    _ = _ := by rw [forceSentinel_idem]

/-- Settles O23: with a profile the rule is the two sentinel writes; without one it raises PROFILE. -/
theorem bsentForcesTheSentinelBytes : Obligations.BsentForcesTheSentinelBytes := by
  refine ⟨encodedWithoutOperand .bsent rfl fun _ => rfl, fun s S L N hf hS => ?selected, fun s hf hv => ?unselected⟩
  case selected =>
    obtain ⟨p, hp, rfl, -, -⟩ := profileSizes_selected hS
    exact ⟨_, exec_bsent_selected hf hp, readByte_forceSentinel_fromEnd p s, execAll_bsent_bsent hf hp⟩
  case unselected =>
    exact exec_error (i := .bsent) nofun hf (withProfile_unselected hv)

/-! ### The record-based path -/

/-- A read after a record's bytes were written: the record's byte where it covers the address, else the old one. -/
theorem readByte_insertBytes_record (s : State) (r : Record) (x : Nat) :
    readByte { s with buf := insertBytes s.buf r.address.toNat r.bytes } x = (r.byteAt x).getD (readByte s x) := by
  rw [readByte_insertBytes, Record.byteAt]
  by_cases hlow : r.address.toNat ≤ x
  · rw [if_pos hlow]
    by_cases hhigh : x < r.address.toNat + r.bytes.length
    · have hk : x - r.address.toNat < r.bytes.length := by omega
      rw [if_pos ⟨hlow, hhigh⟩, List.getElem?_eq_getElem hk, List.getD_eq_getElem _ _ hk]
      rfl
    · rw [if_neg (hhigh ·.2), List.getElem?_eq_none (by omega)]
      rfl
  · rw [if_neg (hlow ·.1), if_neg hlow]
    rfl

/-- LOADs inside BUF raise no fault, keep PROF, and leave at each address the byte of the last record covering it (R96). -/
theorem execAll_flatMap_load (records : List Record) {s : State} (hf : s.fault = 0x00#8)
    (h : ∀ r ∈ records, rangeInBuf r.address.toNat r.bytes.length) :
    ∃ t, execAll (records.flatMap Record.load) s = .next t ∧ t.fault = 0x00#8 ∧ t.prof = s.prof ∧
      ∀ x, readByte t x = records.foldl (fun acc r => (r.byteAt x).getD acc) (readByte s x) := by
  induction records generalizing s with
  | nil => exact ⟨s, rfl, hf, rfl, fun _ => rfl⟩
  | cons r rs ih =>
    obtain ⟨hr, hrs⟩ := List.forall_mem_cons.mp h
    let u : State := { s with
      buf := insertBytes s.buf r.address.toNat r.bytes, addr := r.address + BitVec.ofNat 16 (r.more.length + 1),
      pc := s.pc + (r.more.length + 2) }
    have hload : execAll r.load s = .next u := execAll_load r.first hf hr
    have hu (x : Nat) : readByte u x = (r.byteAt x).getD (readByte s x) := readByte_insertBytes_record s r x
    obtain ⟨t, ht, htf, htp, hread⟩ := ih (s := u) hf hrs
    refine ⟨t, ?_, htf, htp, fun x => ?_⟩
    · rw [List.flatMap_cons, execAll_append hload, ht]
    · rw [hread, hu, List.foldl_cons]

/-- Settles O24: BEGIN fills the image with 0xFF, the LOADs put their bytes over it in order, and BSENT ends it. -/
theorem imageIsReconstructedFromItsRecords : Obligations.ImageIsReconstructedFromItsRecords := by
  intro s p records hf hrec
  let u : State := { s with
    prof := profOf p, buf := Memory.fill s.buf (Config.imgSize p) Config.erased, pc := s.pc + 2 }
  have hbegin : execAll [.prof p, .bfill] s = .next u := execAll_begin p hf
  obtain ⟨t, hloads, htf, htp, hread⟩ :=
    execAll_flatMap_load records (s := u) hf fun r hr => (hrec r hr).trans (imgSize_le_bufSize p)
  have hp : selectedProfile t.prof = some p := by
    rw [htp]
    exact selectedProfile_profOf p
  refine ⟨{ forceSentinel p t with pc := t.pc + 1 }, ?run, htf, fun x hx => ?byte⟩
  case run =>
    rw [List.append_assoc, execAll_append hbegin, execAll_append hloads]
    exact execAll_cons (exec_bsent_selected htf hp)
  case byte =>
    have hfill : readByte u x = Config.erased :=
      (readByte_fillBytes s (Config.imgSize p) x Config.erased).trans (if_pos hx)
    calc readByte (forceSentinel p t) x
      _ = if x + 2 = Config.imgSize p ∨ x + 1 = Config.imgSize p then 0x00#8 else readByte t x :=
        readByte_forceSentinel_fromEnd p t x
      _ = reconstructedByte (Config.imgSize p) records x := by
        rw [hread, hfill]
        exact if_congr (by omega) rfl rfl

end Sys2Proof
end

section
/-! PROOFS. The frame composer (spec/42_frame.md): the trailer commands, FRAME, and the custom-block path. -/

namespace Sys2Proof

open Sys2Proof.Machine

/-- Settles O25: the three commands by their forms, and their rules always complete. -/
theorem trailerCommands : Obligations.TrailerCommands := by
  refine ⟨encodedWithHalf .trli rfl fun _ => rfl, encodedWithoutOperand .trlc rfl fun _ => rfl,
    encodedWithoutOperand .trln rfl fun _ => rfl, fun s hf => ⟨fun t => ?_, ?_, ?_⟩⟩
  · exact exec_ok (i := .trli t) nofun hf rfl
  · exact exec_ok (i := .trlc) nofun hf rfl
  · exact exec_ok (i := .trln) nofun hf rfl

/-! ### FRAME -/

/-- The frame of the Block in the registers, with its trailer where TEN is 1 (R27, R106). -/
def registerFrame (s : State) : List Byte :=
  hdr s.idx s.len ++ bytesAt s s.addr.toNat s.len.toNat ++ (if s.ten then trl s.trl else [])

/-- The registers' frame is the serialisation of their Block (R52). -/
theorem frameBytes_registers (s : State) :
    frameBytes s.idx s.len (readSlice s s.addr.toNat s.len.toNat) (trailerOf s) = registerFrame s := by
  rw [registerFrame, bytesAt_eq_readSlice, trailerOf]
  cases s.ten
  · exact (List.append_nil _).symm
  · rfl

theorem registerFrame_length (s : State) :
    (registerFrame s).length = 4 + s.len.toNat + (if s.ten then 2 else 0) := by
  rw [← frameBytes_registers, frameBytes_length, readSlice_length, trailerOf]
  cases s.ten <;> rfl

/-- FRAME, where both its checks pass, appends the registers' frame to OUT (R106). -/
theorem exec_frame {s : State} (hf : s.fault = 0x00#8) (hl : s.len.toNat ≤ Config.maxBlock)
    (h : rangeInBuf s.addr.toNat s.len.toNat) :
    exec .frame s = .next { s with out := s.out ++ [registerFrame s], pc := s.pc + 1 } := by
  rw [← frameBytes_registers]
  exact exec_ok (i := .frame) nofun hf (frameRule_eq_ok.mpr ⟨hl, h, rfl⟩)

/-- FRAME changes no register it reads, so a second one emits the same frame (R106). -/
theorem execAll_frame_frame {s : State} (hf : s.fault = 0x00#8) (hl : s.len.toNat ≤ Config.maxBlock)
    (h : rangeInBuf s.addr.toNat s.len.toNat) :
    execAll [.frame, .frame] s =
      .next { s with out := s.out ++ [registerFrame s, registerFrame s], pc := s.pc + 2 } := by
  let u : State := { s with out := s.out ++ [registerFrame s], pc := s.pc + 1 }
  calc execAll [.frame, .frame] s
    _ = execAll [.frame] u := execAll_cons (exec_frame hf hl h)
    _ = .next { u with out := u.out ++ [registerFrame u], pc := u.pc + 1 } := execAll_cons (exec_frame (s := u) hf hl h)
    _ = .next { u with out := s.out ++ [registerFrame s, registerFrame s], pc := s.pc + 2 } := by
      rw [List.append_assoc]
      rfl

/-- Settles O26: FRAME's rule completes where both checks pass, and else raises the fault of the first that fails. -/
theorem frameEmitsTheBlockInTheRegisters : Obligations.FrameEmitsTheBlockInTheRegisters := by
  refine ⟨encodedWithoutOperand .frame rfl fun _ => rfl, fun s hf hl h => ?emitted, fun s hf hl => ?tooLong,
    fun s hf hl h => ?outside⟩
  case emitted => exact ⟨exec_frame hf hl h, registerFrame_length s, execAll_frame_frame hf hl h⟩
  case tooLong => exact exec_error (i := .frame) nofun hf (frameRule_eq_error.mpr (.inl ⟨hl, rfl⟩))
  case outside => exact exec_error (i := .frame) nofun hf (frameRule_eq_error.mpr (.inr ⟨hl, h.not_ge, rfl⟩))

/-! ### The custom-block path -/

/-- The range where bytes were just written holds those bytes. -/
theorem bytesAt_insertBytes (s : State) (a : Nat) (vs : List Byte) :
    bytesAt { s with buf := insertBytes s.buf a vs } a vs.length = vs := by
  refine List.ext_getElem (by simp [bytesAt]) fun k _ hk => ?_
  simp [bytesAt, readByte_insertBytes, hk]

/-- LOAD then BLOCK of one payload at one address emits its frame without a trailer (R107). -/
theorem execAll_load_block {s : State} (i : Half) {a : Half} (b : Byte) {bs : List Byte} (hf : s.fault = 0x00#8)
    (ha : a.toNat + Config.maxBlock ≤ Config.bufSize) (hl : bs.length + 1 ≤ Config.maxBlock) :
    ∃ t, execAll ((Pseudo.load a b bs).expand ++ (Pseudo.block i a (BitVec.ofNat 16 (bs.length + 1))).expand) s = .next t ∧
      t.fault = 0x00#8 ∧ t.out = s.out ++ [hdr i (BitVec.ofNat 16 (bs.length + 1)) ++ b :: bs] := by
  have hlt : bs.length + 1 < 2 ^ 16 := hl.trans_lt (by decide)
  have hlen : (BitVec.ofNat 16 (bs.length + 1)).toNat = (b :: bs).length := Nat.mod_eq_of_lt hlt
  have hin : rangeInBuf a.toNat (b :: bs).length := (Nat.add_le_add_left hl _).trans ha
  let u : State := { s with
    buf := insertBytes s.buf a.toNat (b :: bs), addr := a + BitVec.ofNat 16 (bs.length + 1),
    pc := s.pc + (bs.length + 2) }
  have hload : execAll (Pseudo.load a b bs).expand s = .next u := execAll_load b hf hin
  have hpay : bytesAt u a.toNat (b :: bs).length = b :: bs := bytesAt_insertBytes s a.toNat (b :: bs)
  rw [execAll_append hload, execAll_block (s := u) i hf (hlen.trans_le hl) (hlen ▸ hin), hlen, hpay]
  exact ⟨_, rfl, hf, rfl⟩

/-- The custom-block path, its index counted from any number on, appends its frames in order (R107). -/
theorem execAll_customPath {a : Half} (ha : a.toNat + Config.maxBlock ≤ Config.bufSize)
    (blocks : List (Byte × List Byte)) (n : Nat) {s : State} (hf : s.fault = 0x00#8)
    (hlen : ∀ b ∈ blocks, b.2.length + 1 ≤ Config.maxBlock) :
    ∃ t, execAll (customPath a n blocks) s = .next t ∧ t.fault = 0x00#8 ∧ t.out = s.out ++ customFrames n blocks := by
  induction blocks generalizing n s with
  | nil => exact ⟨s, rfl, hf, (List.append_nil _).symm⟩
  | cons block rest ih =>
    obtain ⟨b, bs⟩ := block
    obtain ⟨hl, hrest⟩ := List.forall_mem_cons.mp hlen
    obtain ⟨u, hu, huf, huo⟩ := execAll_load_block (BitVec.ofNat 16 n) b hf ha hl
    obtain ⟨t, ht, htf, hto⟩ := ih (n + 1) huf hrest
    refine ⟨t, ?_, htf, ?_⟩
    · rw [customPath, execAll_append hu, ht]
    · rw [hto, huo, List.append_assoc]
      rfl

/-- Settles O27, by induction on the blocks, the index counted from any number. -/
theorem customPathEmitsItsBlocksInOrder : Obligations.CustomPathEmitsItsBlocksInOrder :=
  fun _ _ blocks hf ha _ hlen => execAll_customPath ha blocks 0 hf hlen

end Sys2Proof
end

section
/-! PROOFS. The profile and the image (spec/43_image.md): PROF, and what IMAGE writes, emits, reads and equals. -/

namespace Sys2Proof

open Sys2Proof.Machine

/-! ### PROF -/

theorem exists_eq_profOf {q : BitVec 2} (h : q.getLsbD 1 = true) : ∃ p, q = profOf p := by
  have key : ∀ q : BitVec 2, q.getLsbD 1 = true → q = profOf .p0 ∨ q = profOf .p1 := by decide
  exact (key q h).elim (⟨.p0, ·⟩) (⟨.p1, ·⟩)

/-- A completed rule keeps a profile selected: PROF alone writes the register, and it sets `PROF.V` (R10, R117). -/
theorem profV_of_ruleOf {i : Instr} {s u : State} (h : ruleOf i s = .ok u) (hs : profV s.prof = true) :
    profV u.prof = true := by
  by_cases hu : u.prof = s.prof
  · rwa [hu]
  · have hw : i.op ∈ [Op.prof, .reset] := op_mem_writers_of_ruleOf (r := .prof) h hu
    cases i with
    | prof p => cases h; exact profV_profOf p
    | reset => cases h; exact hs
    | _ => simp [Instr.op] at hw

/-- Settles O29: PROF has form `I1` and always completes; of the four things an instruction can do, only the reset clears
`PROF.V`. -/
theorem profSelectsTheProfile : Obligations.ProfSelectsTheProfile := by
  refine ⟨encodedWithBit .prof rfl fun _ => rfl, fun p s hf => ?selects, fun i s t h hs ht => ?onlyReset⟩
  case selects =>
    rw [← profOf_eq]
    exact exec_ok (i := .prof p) nofun hf rfl
  case onlyReset =>
    rcases exec_cases h with ⟨hi, -⟩ | ⟨-, -, rfl⟩ | ⟨-, -, u, hu, rfl⟩ | ⟨-, -, c, -, rfl⟩
    · exact hi
    · exact absurd hs (Bool.eq_false_iff.mp ht)
    · exact absurd (profV_of_ruleOf hu hs) (Bool.eq_false_iff.mp ht)
    · exact absurd hs (Bool.eq_false_iff.mp ht)

/-! ### The state after IMAGE -/

/-- The state IMAGE composes its frames from: the sentinel bytes forced and the checksum taken (R118, steps 1 and 2). -/
def imageReady (p : Profile) (s : State) : State := imageChecksum p (forceSentinel p s)

/-- The frames IMAGE emits, in order (R118, step 3). -/
def imageFrames (p : Profile) (s : State) : List (List Byte) :=
  (List.range (Config.nBlk p)).map (imageFrame p (imageReady p s))

/-- The state IMAGE leaves: the registers of its last block, and its frames at the end of OUT (R118, R121). -/
def imageDone (p : Profile) (s : State) : State :=
  { imageReady p s with
    idx := BitVec.ofNat 16 (Config.nBlk p - 1), addr := BitVec.ofNat 16 ((Config.nBlk p - 1) * Config.blkLen p),
    len := BitVec.ofNat 16 (Config.blkLen p), trl := (imageReady p s).crc, ten := true,
    out := s.out ++ imageFrames p s, pc := s.pc + 1 }

/-- IMAGE with a profile selected, its loop done (R118). -/
theorem exec_image {s : State} {p : Profile} (hf : s.fault = 0x00#8) (hp : selectedProfile s.prof = some p) :
    exec .image s = .next (imageDone p s) := by
  rw [exec_image_selected hf hp, imageSteps_eq]
  rfl

/-- Of BUF, IMAGE writes the two sentinel bytes alone (R123). -/
theorem readByte_imageDone (p : Profile) (s : State) (a : Nat) :
    readByte (imageDone p s) a =
      if a + 2 = Config.imgSize p ∨ a + 1 = Config.imgSize p then 0x00#8 else readByte s a :=
  readByte_forceSentinel_fromEnd p s a

theorem imageReady_crc (p : Profile) (s : State) :
    (imageReady p s).crc = crcBuf 0xFFFF#16 (bytesAt (imageDone p s) 0 (Config.imgSize p)) := by
  rw [bytesAt_eq_readSlice]
  rfl

theorem imageFrames_length (p : Profile) (s : State) : (imageFrames p s).length = Config.nBlk p := by simp [imageFrames]

/-- The frame of a block in its three parts (R52). -/
theorem imageFrame_eq_append (p : Profile) (s : State) (k : Nat) :
    imageFrame p s k =
      hdr (BitVec.ofNat 16 k) (BitVec.ofNat 16 (Config.blkLen p)) ++
        bytesAt s (k * Config.blkLen p) (Config.blkLen p) ++ (if k + 1 = Config.nBlk p then trl s.crc else []) := by
  rw [bytesAt_eq_readSlice, imageFrame]
  split
  · rfl
  · exact (List.append_nil _).symm

/-- Settles O30: with a profile, the state is `imageDone`, its frames written out; without one the rule raises PROFILE. -/
theorem imageFinalisesTheImage : Obligations.ImageFinalisesTheImage := by
  refine ⟨encodedWithoutOperand .image rfl fun _ => rfl, fun s S L N hf hS => ?selected, fun s hf hv => ?unselected⟩
  case selected =>
    obtain ⟨p, hp, rfl, rfl, rfl⟩ := profileSizes_selected hS
    refine ⟨(forceSentinel p s).buf, ?_, readByte_imageDone p s⟩
    rw [exec_image hf hp, imageDone, imageFrames, funext (imageFrame_eq_append p (imageReady p s)), imageReady_crc]
    rfl
  case unselected =>
    exact exec_error (i := .image) nofun hf (withProfile_unselected hv)

/-! ### The registers after IMAGE -/

theorem toNat_ofNat_imgSize (p : Profile) : (BitVec.ofNat 16 (Config.imgSize p)).toNat = Config.imgSize p := by
  cases p <;> rfl

/-- A block's address fits ADDR. -/
theorem toNat_ofNat_blockAddr {p : Profile} {k : Nat} (h : k < Config.nBlk p) :
    (BitVec.ofNat 16 (k * Config.blkLen p)).toNat = k * Config.blkLen p := by
  have hin := block_addr_lt p k h
  have hS := imgSize_le p
  exact Nat.mod_eq_of_lt (by omega)

theorem blkLen_le_maxBlock (p : Profile) : Config.blkLen p ≤ Config.maxBlock := (blkLen_le p).trans (by decide)

/-- Every block of the image lies in BUF. -/
theorem block_rangeInBuf {p : Profile} {k : Nat} (h : k < Config.nBlk p) :
    rangeInBuf (k * Config.blkLen p) (Config.blkLen p) := (block_addr_lt p k h).trans (imgSize_le_bufSize p)

theorem lastBlock_lt (p : Profile) : Config.nBlk p - 1 < Config.nBlk p := Nat.sub_one_lt (nBlk_pos p).ne'

theorem imageDone_addr_toNat (p : Profile) (s : State) :
    (imageDone p s).addr.toNat = (Config.nBlk p - 1) * Config.blkLen p := toNat_ofNat_blockAddr (lastBlock_lt p)

theorem imageDone_len_toNat (p : Profile) (s : State) : (imageDone p s).len.toNat = Config.blkLen p :=
  toNat_ofNat_blkLen p

/-- The Block that IMAGE leaves in the registers is that of its last frame (R121). -/
theorem registerFrame_imageDone (p : Profile) (s : State) :
    registerFrame (imageDone p s) = imageFrame p (imageReady p s) (Config.nBlk p - 1) := by
  rw [registerFrame, imageDone_addr_toNat, imageDone_len_toNat, imageFrame_eq_append,
    if_pos (Nat.sub_add_cancel (nBlk_pos p))]
  rfl

theorem getLast?_imageFrames (p : Profile) (s : State) :
    (imageFrames p s).getLast? = some (imageFrame p (imageReady p s) (Config.nBlk p - 1)) := by
  have hN : Config.nBlk p ≠ 0 := (nBlk_pos p).ne'
  simp [imageFrames, List.getLast?_range, hN]

/-- A FRAME right after IMAGE emits the last frame once more (R121). -/
theorem exec_frame_imageDone {s : State} (p : Profile) (hf : s.fault = 0x00#8) :
    exec .frame (imageDone p s) = .next { imageDone p s with
      out := (imageDone p s).out ++ [imageFrame p (imageReady p s) (Config.nBlk p - 1)],
      pc := (imageDone p s).pc + 1 } := by
  have hlen := imageDone_len_toNat p s
  rw [← registerFrame_imageDone]
  refine exec_frame hf (hlen.trans_le (blkLen_le_maxBlock p)) ?_
  rw [imageDone_addr_toNat, hlen]
  exact block_rangeInBuf (lastBlock_lt p)

/-- Settles O31: the registers are those of `imageDone`, their values computed for each profile. -/
theorem imageLeavesTheRegistersOfItsExpansion : Obligations.ImageLeavesTheRegistersOfItsExpansion := by
  intro s t hf hv ht
  obtain ⟨p, hp⟩ := exists_eq_profOf hv
  rw [exec_image hf (by rw [hp, selectedProfile_profOf])] at ht
  cases ht
  refine ⟨rfl, ?crc, rfl, rfl, rfl, rfl, ?p0, ?p1, _, ?last, exec_frame_imageDone p hf⟩
  case crc =>
    have hcnt : (imageDone p s).cnt.toNat = Config.imgSize p := toNat_ofNat_imgSize p
    rw [hcnt]
    exact imageReady_crc p s
  case p0 =>
    rw [hp]
    cases p
    · exact fun _ => ⟨rfl, rfl, rfl, rfl⟩
    · exact fun h => absurd h (by decide)
  case p1 =>
    rw [hp]
    cases p
    · exact fun h => absurd h (by decide)
    · exact fun _ => ⟨rfl, rfl, rfl, rfl⟩
  case last =>
    calc (s.out ++ imageFrames p s).getLast?
      _ = (imageFrames p s).getLast?.or s.out.getLast? := List.getLast?_append
      _ = some (imageFrame p (imageReady p s) (Config.nBlk p - 1)) := by
        rw [getLast?_imageFrames]
        rfl

/-! ### The frames of IMAGE -/

/-- Reading block `k`'s frame back (R119, R120). -/
theorem readFrame_imageFrame (p : Profile) (s : State) (k : Nat) :
    readFrame (imageFrame p s k) = some ⟨BitVec.ofNat 16 k, BitVec.ofNat 16 (Config.blkLen p),
      bytesAt s (k * Config.blkLen p) (Config.blkLen p), if k + 1 = Config.nBlk p then some s.crc else none⟩ := by
  rw [bytesAt_eq_readSlice]
  exact readFrame_frameBytes _ _ ((readSlice_length ..).trans (toNat_ofNat_blkLen p).symm)

theorem imageFrame_length (p : Profile) (s : State) (k : Nat) :
    (imageFrame p s k).length = 4 + Config.blkLen p + (if k + 1 = Config.nBlk p then 2 else 0) := by
  rw [imageFrame, frameBytes_length, readSlice_length]
  split <;> rfl

theorem payload_imageFrame (p : Profile) (s : State) (k : Nat) :
    ((imageFrame p s k).drop 4).take (Config.blkLen p) = bytesAt s (k * Config.blkLen p) (Config.blkLen p) := by
  rw [imageFrame, frameBytes_drop_four, List.take_left' (readSlice_length ..), bytesAt_eq_readSlice]

/-- Of `n + 1` equal lengths only the last is longer. -/
theorem sum_map_range_last (n c d : Nat) :
    ((List.range (n + 1)).map fun k => c + (if k + 1 = n + 1 then d else 0)).sum = (n + 1) * c + d := by
  have hinit : (List.range n).map (fun k => c + (if k + 1 = n + 1 then d else 0)) = List.replicate n c := by
    refine List.eq_replicate_iff.mpr ⟨by simp, fun x hx => ?_⟩
    obtain ⟨k, hk, rfl⟩ := List.mem_map.mp hx
    have hlt := List.mem_range.mp hk
    rw [if_neg (by omega), Nat.add_zero]
  rw [List.range_succ, List.map_append, hinit]
  simp [Nat.add_mul, Nat.add_assoc]

/-- The frames' lengths: one header and one block each, and one trailer (R120). -/
theorem sum_length_imageFrames (p : Profile) (s : State) :
    ((imageFrames p s).map List.length).sum = Config.nBlk p * (4 + Config.blkLen p) + 2 := by
  have hsum := sum_map_range_last (Config.nBlk p - 1) (4 + Config.blkLen p) 2
  rw [Nat.sub_add_cancel (nBlk_pos p)] at hsum
  rw [imageFrames, List.map_map, ← hsum]
  exact congrArg List.sum (List.map_congr_left fun k _ => imageFrame_length p (imageReady p s) k)

/-- Adjacent blocks joined are the range they cover. -/
theorem flatMap_bytesAt_blocks (s : State) (l n : Nat) :
    (List.range n).flatMap (fun k => bytesAt s (k * l) l) = bytesAt s 0 (n * l) := by
  induction n with
  | zero => simp [bytesAt]
  | succ n ih => rw [List.range_succ, List.flatMap_append, ih, Nat.succ_mul, bytesAt_add, Nat.zero_add]; simp

/-- The payloads in index order are the image (R119). -/
theorem flatMap_payload_imageFrames (p : Profile) (s : State) :
    (imageFrames p s).flatMap (fun f => (f.drop 4).take (Config.blkLen p)) =
      bytesAt (imageDone p s) 0 (Config.imgSize p) := by
  rw [imageFrames, List.flatMap_map, funext (payload_imageFrame p (imageReady p s)), flatMap_bytesAt_blocks,
    nBlk_mul_blkLen]
  rfl

theorem two_le_blkLen (p : Profile) : 2 ≤ Config.blkLen p := by cases p <;> decide

/-- The last block of the image ends in the two sentinel bytes (R120). -/
theorem lastBlock_imageDone (p : Profile) (s : State) :
    (bytesAt (imageDone p s) ((Config.nBlk p - 1) * Config.blkLen p) (Config.blkLen p)).drop (Config.blkLen p - 2) =
      [0x00#8, 0x00#8] := by
  have hend : (Config.nBlk p - 1) * Config.blkLen p + (Config.blkLen p - 2) = Config.imgSize p - 2 := by cases p <;> rfl
  have hS := two_le_imgSize p
  calc (bytesAt (imageDone p s) ((Config.nBlk p - 1) * Config.blkLen p) (Config.blkLen p)).drop (Config.blkLen p - 2)
    _ = (bytesAt (imageDone p s) ((Config.nBlk p - 1) * Config.blkLen p) (Config.blkLen p - 2 + 2)).drop
          (Config.blkLen p - 2) := by rw [Nat.sub_add_cancel (two_le_blkLen p)]
    _ = bytesAt (imageDone p s) (Config.imgSize p - 2) 2 := by
      rw [bytesAt_add, hend, List.drop_left' (by simp [bytesAt])]
    _ = [readByte (imageDone p s) (Config.imgSize p - 2), readByte (imageDone p s) (Config.imgSize p - 2 + 1)] := rfl
    _ = [0x00#8, 0x00#8] := by
      rw [readByte_imageDone, if_pos (by omega), readByte_imageDone, if_pos (by omega)]

/-- Settles O32: each frame is read back by itself, and the payloads are adjacent blocks. -/
theorem imageFramesAreTheBlocksOfTheImage : Obligations.ImageFramesAreTheBlocksOfTheImage := by
  intro s S L N hf hS
  obtain ⟨p, hp, rfl, rfl, rfl⟩ := profileSizes_selected hS
  refine ⟨imageDone p s, imageFrames p s, exec_image hf hp, rfl, imageFrames_length p s, fun k hk => ?frame,
    sum_length_imageFrames p s, flatMap_payload_imageFrames p s, lastBlock_imageDone p s⟩
  case frame =>
    refine ⟨imageFrame p (imageReady p s) k, by simp [imageFrames, hk], ?_, imageFrame_length p (imageReady p s) k⟩
    rw [readFrame_imageFrame, imageReady_crc]
    rfl

/-! ### IMAGE as a command sequence -/

/-- The commands of block `k` in the expansion of IMAGE (R122). -/
def blockCommands (p : Profile) (k : Nat) : List Instr :=
  [.seti (BitVec.ofNat 16 k), .seta (BitVec.ofNat 16 (k * Config.blkLen p)), .setl (BitVec.ofNat 16 (Config.blkLen p)),
    if k + 1 = Config.nBlk p then .trlc else .trln, .frame]

/-- The expansion of IMAGE: BSENT, CHECKSUM of the image, and the blocks' commands, the last block among them (R122). -/
theorem imageExpansion_eq (p : Profile) :
    imageExpansion p =
      .bsent :: (Pseudo.checksum 0#16 (BitVec.ofNat 16 (Config.imgSize p)) 0xFFFF#16).expand ++
        (List.range (Config.nBlk p)).flatMap (blockCommands p) := by
  have hlast : Config.nBlk p - 1 + 1 = Config.nBlk p := Nat.sub_add_cancel (nBlk_pos p)
  have hinit : ∀ k ∈ List.range (Config.nBlk p - 1), blockCommands p k =
      [.seti (BitVec.ofNat 16 k), .seta (BitVec.ofNat 16 (k * Config.blkLen p)),
        .setl (BitVec.ofNat 16 (Config.blkLen p)), .trln, .frame] := fun k hk => by
    have hlt := List.mem_range.mp hk
    rw [blockCommands, if_neg (by omega)]
  rw [← hlast, List.range_succ, List.flatMap_append, List.flatMap_congr hinit, List.flatMap_singleton, blockCommands,
    if_pos hlast]
  simp [imageExpansion, Pseudo.expand]

/-- A block's commands do what one turn of IMAGE's loop does, in five pc steps. -/
theorem execAll_blockCommands {s : State} {p : Profile} {k : Nat} (hf : s.fault = 0x00#8) (hk : k < Config.nBlk p) :
    execAll (blockCommands p k) s = .next { imageBlock p s k with pc := s.pc + 5 } := by
  let u : State := { s with
    idx := BitVec.ofNat 16 k, addr := BitVec.ofNat 16 (k * Config.blkLen p), len := BitVec.ofNat 16 (Config.blkLen p),
    pc := s.pc + 3 }
  have hlen : u.len.toNat ≤ Config.maxBlock := (toNat_ofNat_blkLen p).trans_le (blkLen_le_maxBlock p)
  have hin : rangeInBuf u.addr.toNat u.len.toNat := by
    rw [toNat_ofNat_blkLen, toNat_ofNat_blockAddr hk]
    exact block_rangeInBuf hk
  rw [blockCommands, execAll_setBlock _ _ _ _ hf, imageBlock]
  split
  · let v : State := { setTrailer s.crc u with pc := s.pc + 4 }
    calc execAll [.trlc, .frame] u
      _ = execAll [.frame] v := execAll_cons_ok (i := .trlc) (s := u) nofun hf rfl
      _ = _ := execAll_frame (s := v) hf hlen hin
  · let v : State := { clearTrailer u with pc := s.pc + 4 }
    calc execAll [.trln, .frame] u
      _ = execAll [.frame] v := execAll_cons_ok (i := .trln) (s := u) nofun hf rfl
      _ = _ := execAll_frame (s := v) hf hlen hin

theorem imageBlock_fault (p : Profile) (s : State) (k : Nat) : (imageBlock p s k).fault = s.fault := by
  rw [imageBlock]
  split <;> rfl

/-- A turn of IMAGE's loop does not read pc. -/
theorem imageBlock_withPc (p : Profile) (n : Nat) (s : State) (k : Nat) :
    imageBlock p { s with pc := n } k = { imageBlock p s k with pc := n } := by
  simp only [imageBlock]
  split <;> rfl

/-- The loop of IMAGE does not read pc. -/
theorem foldl_imageBlock_withPc (p : Profile) (n : Nat) (s : State) (ks : List Nat) :
    ks.foldl (imageBlock p) { s with pc := n } = { ks.foldl (imageBlock p) s with pc := n } :=
  List.foldl_hom (fun s : State => { s with pc := n }) (imageBlock_withPc p n)

/-- The commands of any blocks do what IMAGE's loop over them does, but for pc. -/
theorem execAll_flatMap_blockCommands {p : Profile} (ks : List Nat) {s : State} (hf : s.fault = 0x00#8)
    (hk : ∀ k ∈ ks, k < Config.nBlk p) :
    execAll (ks.flatMap (blockCommands p)) s =
      .next { ks.foldl (imageBlock p) s with pc := s.pc + 5 * ks.length } := by
  induction ks generalizing s with
  | nil => rfl
  | cons k ks ih =>
    obtain ⟨hfirst, hrest⟩ := List.forall_mem_cons.mp hk
    let u : State := { imageBlock p s k with pc := s.pc + 5 }
    have huf : u.fault = 0x00#8 := (imageBlock_fault p s k).trans hf
    have hpc : s.pc + 5 + 5 * ks.length = s.pc + 5 * (k :: ks).length := by
      rw [List.length_cons]
      omega
    calc execAll (blockCommands p k ++ ks.flatMap (blockCommands p)) s
      _ = execAll (ks.flatMap (blockCommands p)) u := execAll_append (execAll_blockCommands hf hfirst)
      _ = .next { ks.foldl (imageBlock p) u with pc := s.pc + 5 + 5 * ks.length } := ih (s := u) huf hrest
      _ = .next { ks.foldl (imageBlock p) (imageBlock p s k) with pc := s.pc + 5 * (k :: ks).length } := by
        rw [foldl_imageBlock_withPc, hpc]

/-- The first four commands of the expansion force the sentinel bytes and take the checksum (R118, steps 1 and 2). -/
theorem execAll_bsent_checksum {s : State} {p : Profile} (hf : s.fault = 0x00#8)
    (hp : selectedProfile s.prof = some p) :
    execAll (.bsent :: (Pseudo.checksum 0#16 (BitVec.ofNat 16 (Config.imgSize p)) 0xFFFF#16).expand) s =
      .next { imageReady p s with pc := s.pc + 4 } := by
  let u : State := { forceSentinel p s with pc := s.pc + 1 }
  have hin : rangeInBuf (0#16).toNat (BitVec.ofNat 16 (Config.imgSize p)).toNat := by
    rw [toNat_ofNat_imgSize]
    exact (Nat.zero_add _).trans_le (imgSize_le_bufSize p)
  rw [execAll_cons (exec_bsent_selected hf hp), execAll_checksum (s := u) 0xFFFF#16 hf hin, bytesAt_eq_readSlice,
    toNat_ofNat_imgSize]
  rfl

/-- The expansion does what IMAGE's three steps do, in one pc step for each of its commands (R122). -/
theorem execAll_imageExpansion {s : State} {p : Profile} (hf : s.fault = 0x00#8)
    (hp : selectedProfile s.prof = some p) :
    execAll (imageExpansion p) s = .next { imageSteps p s with pc := s.pc + 4 + 5 * Config.nBlk p } := by
  let u : State := { imageReady p s with pc := s.pc + 4 }
  let ks := List.range (Config.nBlk p)
  calc execAll (imageExpansion p) s
    _ = execAll (ks.flatMap (blockCommands p)) u := by
      rw [imageExpansion_eq]
      exact execAll_append (execAll_bsent_checksum hf hp)
    _ = .next { ks.foldl (imageBlock p) u with pc := s.pc + 4 + 5 * ks.length } :=
      execAll_flatMap_blockCommands ks (s := u) hf fun _ => List.mem_range.mp
    _ = _ := by
      rw [foldl_imageBlock_withPc, List.length_range]
      rfl

/-- Settles O33: IMAGE and its expansion both leave what the three steps leave, but for pc. -/
theorem imageEqualsItsExpansion : Obligations.ImageEqualsItsExpansion :=
  fun _ _ hf hp => ⟨_, execAll_imageExpansion hf hp, exec_image_selected hf hp⟩

/-! ### What IMAGE reads -/

/-- A block's frame depends on the image bytes and CRC alone. -/
theorem imageFrame_congr {p : Profile} {s t : State} {k : Nat} (hk : k < Config.nBlk p) (hcrc : t.crc = s.crc)
    (h : ∀ x, x < Config.imgSize p → readByte t x = readByte s x) : imageFrame p t k = imageFrame p s k := by
  have hin := block_addr_lt p k hk
  rw [imageFrame, imageFrame, hcrc, readSlice_congr _ _ fun x _ hx => h x (by omega)]

/-- The checksum and the frames of IMAGE depend on the image bytes below the sentinel addresses alone (R31). -/
theorem imageReady_crc_imageFrames_congr {p : Profile} {s t : State}
    (h : ∀ a, a + 2 < Config.imgSize p → readByte t a = readByte s a) :
    (imageReady p t).crc = (imageReady p s).crc ∧ imageFrames p t = imageFrames p s := by
  have hbytes : ∀ x, x < Config.imgSize p → readByte (imageReady p t) x = readByte (imageReady p s) x := fun x hx => by
    have hready (r : State) : readByte (imageReady p r) x = readByte (imageDone p r) x := rfl
    rw [hready, hready, readByte_imageDone, readByte_imageDone]
    split
    · rfl
    · exact h x (by omega)
  have hcrc : (imageReady p t).crc = (imageReady p s).crc :=
    congrArg (crcBuf 0xFFFF#16) (readSlice_congr 0 (Config.imgSize p) fun x _ hx => hbytes x (by omega))
  exact ⟨hcrc, List.map_congr_left fun k hk => imageFrame_congr (List.mem_range.mp hk) hcrc hbytes⟩

/-- Settles O35: both states are `imageDone`, and what they computed agrees. -/
theorem imageDependsOnlyOnTheImage : Obligations.ImageDependsOnlyOnTheImage := by
  intro s t s' t' S L N hf hf' hprof hS h ht ht'
  obtain ⟨p, hp, rfl, rfl, rfl⟩ := profileSizes_selected hS
  rw [exec_image hf hp] at ht
  rw [exec_image hf' (hprof ▸ hp)] at ht'
  cases ht
  cases ht'
  obtain ⟨hcrc, hframes⟩ := imageReady_crc_imageFrames_congr h
  refine ⟨hcrc, ?_⟩
  calc (s'.out ++ imageFrames p s').drop s'.out.length
    _ = imageFrames p s' := List.drop_left
    _ = imageFrames p s := hframes
    _ = (s.out ++ imageFrames p s).drop s.out.length := List.drop_left.symm

/-! ### IMAGE again -/

/-- IMAGE leaves the sentinel bytes as forcing them once more would (R123). -/
theorem forceSentinel_imageDone (p : Profile) (s : State) : forceSentinel p (imageDone p s) = imageDone p s := by
  calc forceSentinel p (imageDone p s)
    _ = { imageDone p s with buf := (forceSentinel p (forceSentinel p s)).buf } := rfl
    _ = imageDone p s := by
      rw [forceSentinel_idem]
      rfl

/-- A second IMAGE only emits the frames of the first once more (R123). -/
theorem imageDone_imageDone (p : Profile) (s : State) :
    imageDone p (imageDone p s) = { imageDone p s with
      out := (imageDone p s).out ++ imageFrames p s, pc := (imageDone p s).pc + 1 } := by
  obtain ⟨hcrc, hframes⟩ := imageReady_crc_imageFrames_congr (p := p) (s := s) (t := imageDone p s) fun a ha => by
    rw [readByte_imageDone, if_neg (by omega)]
  have hready : imageReady p (imageDone p s) =
      { imageDone p s with addr := 0#16, cnt := BitVec.ofNat 16 (Config.imgSize p), crc := (imageReady p s).crc } := by
    rw [← hcrc, imageReady, forceSentinel_imageDone]
    rfl
  rw [imageDone, hframes, hready]
  rfl

/-- Settles O34: the second IMAGE finds the image and the registers as the first left them. -/
theorem imageAgainEmitsTheSameFrames : Obligations.ImageAgainEmitsTheSameFrames := by
  intro s S L N hf hS
  obtain ⟨p, hp, rfl, rfl, rfl⟩ := profileSizes_selected hS
  refine ⟨imageDone p s, imageFrames p s, exec_image hf hp, rfl, imageFrames_length p s, readByte_imageDone p s, ?_⟩
  rw [← imageDone_imageDone]
  exact exec_image (s := imageDone p s) hf hp

end Sys2Proof
end

section
/-! PROOFS. The system commands and the step (spec/44_system.md R130 to R133): NOP and RESET, the common execution rule for the word at index pc, and recovery runs. -/

namespace Sys2Proof

open Sys2Proof.Machine

/-! ### NOP and RESET -/

/-- The word of RESET (R57). -/
theorem encode_reset : encode .reset = 0x010000#24 := by decide

/-- Settles O14: NOP has form `N`, and its rule always completes. -/
theorem nopOnlyAdvancesPc : Obligations.NopOnlyAdvancesPc :=
  ⟨encodedWithoutOperand .nop rfl fun _ => rfl, fun _ hf => exec_ok (i := .nop) nofun hf rfl⟩

/-- The word of RESET is taken in every state (R131). -/
theorem step_of_resetWord {s : State} (hw : fetch s = some 0x010000#24) : step s = exec .reset s :=
  step_eq_exec hw (decode_eq_ok_iff.mpr encode_reset.symm)

/-- A halted machine does not take an illegal word (R132). -/
theorem illegalWord_halted (w : Cmd) {s : State} (hf : s.fault ≠ 0x00#8) : illegalWord w s = .next s := if_pos hf

/-- A halted machine takes no word but that of RESET (R132, R148). -/
theorem step_of_halted {s : State} {w : Cmd} (hf : s.fault ≠ 0x00#8) (hw : fetch s = some w) (hne : w ≠ 0x010000#24) :
    step s = .next s := by
  cases hd : decode w with
  | ok i =>
    have hi : i ≠ .reset := by
      rintro rfl
      exact hne ((decode_eq_ok_iff.mp hd).trans encode_reset)
    rw [step_eq_exec hw hd, exec_halted hi hf]
  | error e => simp [step, hw, hd, illegalWord_halted w hf]

/-- RESET with the lowest must-be-zero bit set is no command (R131). -/
theorem decode_010001_ne_ok (i : Instr) : decode 0x010001#24 ≠ .ok i := by
  rw [show decode 0x010001#24 = .error .mustBeZeroBitSet by decide]
  nofun

/-- Settles O15: RESET has form `N`, the reset leaves no byte of BUF listed, and 0x010001 is an illegal word. -/
theorem resetReturnsToTheResetState : Obligations.ResetReturnsToTheResetState := by
  refine ⟨encodedWithoutOperand .reset rfl fun _ => rfl, fun s => ⟨[], exec_reset s, fun _ => rfl⟩, fun s hw => ?_⟩
  by_cases hf : s.fault = 0x00#8
  · rw [if_pos hf]
    exact step_of_illegal hf hw decode_010001_ne_ok
  · rw [if_neg hf]
    exact step_of_halted hf hw (by decide)

/-! ### The common execution rule -/

/-- Settles O42: this is how the step is defined for a word that decodes. -/
theorem stepRunsTheDecodedInstruction : Obligations.StepRunsTheDecodedInstruction := fun _ _ _ => step_eq_exec

/-- Every instruction answers a next state. -/
theorem exec_next (i : Instr) (s : State) : ∃ t, exec i s = .next t := by
  by_cases hi : i = .reset
  · subst hi
    exact ⟨_, exec_reset s⟩
  · rw [exec_eq_perform i s hi]
    exact perform_next i (ruleOf i) s

/-- An illegal word answers a next state, running or halted. -/
theorem illegalWord_next (w : Cmd) (s : State) : ∃ t, illegalWord w s = .next t := by
  unfold illegalWord
  split <;> exact ⟨_, rfl⟩

/-- Every step answers a next state. -/
theorem step_next (s : State) : ∃ t, step s = .next t := by
  unfold step
  split
  · exact ⟨s, rfl⟩
  · split
    · exact exec_next ..
    · exact illegalWord_next ..

/-- Settles O45: RESET and the common execution rule always answer, and so do an illegal word and the idle machine. -/
theorem everyStepAnswersANextState : Obligations.EveryStepAnswersANextState := ⟨exec_next, step_next⟩

/-- An instruction that leaves a running machine halted has entered a fault with its own word (R132, R147). -/
theorem eq_raise_of_exec {i : Instr} {s t : State} (h : exec i s = .next t) (hs : s.fault = 0x00#8)
    (ht : t.fault ≠ 0x00#8) : ∃ c, t = raise c (encode i) s := by
  rcases exec_cases h with ⟨-, rfl⟩ | ⟨-, hf, rfl⟩ | ⟨-, -, u, hu, rfl⟩ | ⟨-, -, c, -, rfl⟩
  · exact absurd rfl ht
  · exact absurd hs hf
  · obtain ⟨hfault, -⟩ := ruleOf_keeps hu
    exact absurd (hfault.trans hs) ht
  · exact ⟨c, rfl⟩

/-- Settles O43, branch by branch; of a legal word in a running machine, by whether it ends in a fault. -/
theorem stepFollowsTheExecutionRule : Obligations.StepFollowsTheExecutionRule := by
  intro s w hw
  obtain ⟨t, ht⟩ := step_next s
  refine ⟨t, ht, ?haltedReset, fun hf hne => ?haltedOther, fun hf hill => ?illegal, fun hf i hd => ?legal⟩
  case haltedReset =>
    rintro - rfl
    rw [step_of_resetWord hw] at ht
    cases ht
    exact ⟨rfl, rfl, rfl⟩
  case haltedOther =>
    rw [step_of_halted hf hw hne] at ht
    cases ht
    rfl
  case illegal =>
    rw [step_of_illegal hf hw hill] at ht
    cases ht
    rfl
  case legal =>
    rw [step_eq_exec hw hd] at ht
    refine ⟨ht, fun hfault => ?_, (pcAdvancesExactlyOnCompletion i s t ht).1⟩
    obtain ⟨c, rfl⟩ := eq_raise_of_exec ht hf hfault
    rw [encode_of_decode hd]
    rfl

/-! ### Recovery runs -/

/-- A new list's first word is the next one to run (R133). -/
@[simp] theorem fetch_startRun_cons (w : Cmd) (ws : List Cmd) (s : State) : fetch (startRun (w :: ws) s) = some w := rfl

/-- A machine whose step changes nothing stays as it is, however many steps follow. -/
theorem run_of_step_self {s : State} (h : step s = .next s) (n : Nat) : core.run n s = .next s := by
  have hcore : core.step s = .next s := h
  induction n with
  | zero => rfl
  | succ n ih => simp only [Host.Core.run, hcore, ih]

/-- Settles O41: the word of RESET resets and advances to pc 1; any other is not taken, now or later. -/
theorem recoveryRunBeginsWithReset : Obligations.RecoveryRunBeginsWithReset := by
  intro s w ws hf
  have hw : fetch (startRun (w :: ws) s) = some w := fetch_startRun_cons w ws s
  constructor
  · rintro rfl
    rw [step_of_resetWord hw, exec_reset]
    exact ⟨_, rfl, rfl, rfl, rfl, rfl⟩
  · exact fun hne => run_of_step_self (step_of_halted hf hw hne)

end Sys2Proof
end

section
/-! PROOFS. The faults and the halted state (spec/60_exceptions.md): fault entry and which command raises which fault, illegal words, the halted and the idle machine, and which commands PROF cannot reach. -/

namespace Sys2Proof

open Sys2Proof.Machine

/-! ### Fault entry -/

/-- FAULT's largest value is the code of PROFILE (R140). -/
theorem Machine.FaultCode.code_toNat_le (c : FaultCode) : c.code.toNat ≤ 4 := by cases c <;> decide

/-- Settles O36: an instruction faults with its own word and an illegal word with itself; the idle machine enters no fault. -/
theorem faultEntryChangesOnlyFaultAndFinfo : Obligations.FaultEntryChangesOnlyFaultAndFinfo := by
  intro s t h hs ht
  rcases step_cases h with ⟨-, rfl⟩ | ⟨w, i, hw, hd, he⟩ | ⟨w, e, hw, -, he⟩
  · exact absurd hs ht
  · obtain ⟨c, rfl⟩ := eq_raise_of_exec he hs ht
    rw [encode_of_decode hd]
    exact ⟨w, hw, rfl, c.code_toNat_le⟩
  · rcases illegalWord_cases he with ⟨hh, -⟩ | ⟨-, rfl⟩
    · exact absurd hs hh
    · exact ⟨w, hw, rfl, FaultCode.illegal.code_toNat_le⟩

/-! ### Which command raises which fault -/

/-- FRAME alone raises LENGTH (R142). -/
theorem ruleOf_eq_error_length {i : Instr} {s : State} :
    ruleOf i s = .error .length ↔ i = .frame ∧ Config.maxBlock < s.len.toNat := by
  constructor
  · intro h
    rcases ruleOf_error_cases h with ⟨-, hi, hl⟩ | ⟨hc, -⟩ | ⟨hc, -⟩ | ⟨hc, -⟩ | ⟨hc, -⟩
    · exact ⟨hi, hl⟩
    all_goals cases hc
  · rintro ⟨rfl, hl⟩
    exact frameRule_eq_error.mpr (.inl ⟨hl, rfl⟩)

/-- BSTB, CBUF, CSUM and FRAME alone raise BOUNDS, FRAME only where LENGTH does not come first (R143, R150). -/
theorem ruleOf_eq_error_bounds {i : Instr} {s : State} :
    ruleOf i s = .error .bounds ↔
      ((∃ v, i = .bstb v) ∧ Config.bufSize ≤ s.addr.toNat) ∨
      ((i = .cbuf ∨ ∃ seed, i = .csum seed) ∧ Config.bufSize < s.addr.toNat + s.cnt.toNat) ∨
      (i = .frame ∧ s.len.toNat ≤ Config.maxBlock ∧ Config.bufSize < s.addr.toNat + s.len.toNat) := by
  constructor
  · intro h
    rcases ruleOf_error_cases h with ⟨hc, -⟩ | ⟨-, hi, hl, hb⟩ | ⟨-, hi, hb⟩ | ⟨-, hi, ha⟩ | ⟨hc, -⟩
    · cases hc
    · exact .inr (.inr ⟨hi, hl, Nat.lt_of_not_le hb⟩)
    · exact .inr (.inl ⟨hi, Nat.lt_of_not_le hb⟩)
    · exact .inl ⟨hi, Nat.le_of_not_lt ha⟩
    · cases hc
  · rintro (⟨⟨v, rfl⟩, ha⟩ | ⟨rfl | ⟨seed, rfl⟩, hb⟩ | ⟨rfl, hl, hb⟩)
    · exact storePostIncrement_error ha.not_gt
    · exact checksumRange_error s.crc hb
    · exact checksumRange_error seed hb
    · exact frameRule_eq_error.mpr (.inr ⟨hl, hb.not_ge, rfl⟩)

/-- BFILL, BSENT and IMAGE alone raise PROFILE (R144). -/
theorem ruleOf_eq_error_profile {i : Instr} {s : State} :
    ruleOf i s = .error .profile ↔ (i = .bfill ∨ i = .bsent ∨ i = .image) ∧ s.prof.getLsbD 1 = false := by
  constructor
  · intro h
    rcases ruleOf_error_cases h with ⟨hc, -⟩ | ⟨hc, -⟩ | ⟨hc, -⟩ | ⟨hc, -⟩ | ⟨-, hi, hp⟩
    case inr.inr.inr.inr => exact ⟨hi, (selectedProfile_eq_none s.prof).mp hp⟩
    all_goals cases hc
  · rintro ⟨rfl | rfl | rfl, hv⟩ <;> exact withProfile_unselected hv

/-- No rule raises ILLEGAL: a word that decodes is legal (R141). -/
theorem ruleOf_ne_error_illegal (i : Instr) (s : State) : ruleOf i s ≠ .error .illegal := by
  intro h
  rcases ruleOf_error_cases h with ⟨hc, -⟩ | ⟨hc, -⟩ | ⟨hc, -⟩ | ⟨hc, -⟩ | ⟨hc, -⟩ <;> cases hc

/-- A running machine's FAULT after an instruction is the code its rule raises (R132, R147). -/
theorem fault_eq_code_iff {i : Instr} {s t : State} (hs : s.fault = 0x00#8) (h : exec i s = .next t) (c : FaultCode) :
    t.fault = c.code ↔ ruleOf i s = .error c := by
  rcases exec_cases h with ⟨rfl, rfl⟩ | ⟨-, hf, -⟩ | ⟨-, -, u, hu, rfl⟩ | ⟨-, -, d, hd, rfl⟩
  · exact ⟨fun h0 => absurd h0.symm c.code_ne_zero, nofun⟩
  · exact absurd hs hf
  · obtain ⟨hfault, -⟩ := ruleOf_keeps hu
    have hu0 : u.fault = 0x00#8 := hfault.trans hs
    rw [hu]
    exact ⟨fun hc => absurd (hc.symm.trans hu0) c.code_ne_zero, nofun⟩
  · rw [hd, raise_fault, Except.error.injEq]
    exact ⟨FaultCode.code_injective, congrArg FaultCode.code⟩

/-- A running machine's FAULT after an instruction is 0 or the code of a fault other than ILLEGAL. -/
theorem fault_of_exec {i : Instr} {s t : State} (hs : s.fault = 0x00#8) (h : exec i s = .next t) :
    t.fault = 0x00#8 ∨ t.fault = 0x02#8 ∨ t.fault = 0x03#8 ∨ t.fault = 0x04#8 := by
  by_cases ht : t.fault = 0x00#8
  · exact .inl ht
  · obtain ⟨c, rfl⟩ := eq_raise_of_exec h hs ht
    cases c with
    | illegal => exact absurd ((fault_eq_code_iff hs h .illegal).mp rfl) (ruleOf_ne_error_illegal i s)
    | length => exact .inr (.inl rfl)
    | bounds => exact .inr (.inr (.inl rfl))
    | profile => exact .inr (.inr (.inr rfl))

/-- A word with an assigned opcode is illegal exactly when its immediate is out of the form's range (R56, R58 (b)). -/
theorem exists_decode_error_iff (o : Op) (imm : Half) :
    (∃ e, decode (packWord o.code imm) = .error e) ↔ 2 ^ o.form.bits ≤ imm.toNat := by
  rw [decode_packWord_range]
  by_cases h : imm.toNat < 2 ^ o.form.bits
  · simp [h]
  · simp [h, Nat.le_of_not_lt h]

/-- Settles O37: each fault is the one the rule raises, and a form's illegal immediates are those out of its range. -/
theorem whichCommandRaisesWhichFault : Obligations.WhichCommandRaisesWhichFault := by
  refine ⟨fun i s t hs h => ⟨?length, ?bounds, ?profile, fault_of_exec hs h⟩, fun o imm => ?illegal⟩
  case length => exact (fault_eq_code_iff hs h .length).trans ruleOf_eq_error_length
  case bounds => exact (fault_eq_code_iff hs h .bounds).trans ruleOf_eq_error_bounds
  case profile => exact (fault_eq_code_iff hs h .profile).trans ruleOf_eq_error_profile
  case illegal =>
    rw [exists_decode_error_iff]
    cases o.form with
    | n => exact Nat.one_le_iff_ne_zero.trans (BitVec.toNat_ne_iff_ne (y := 0#16))
    | i1 => exact Iff.rfl
    | i8 => exact Iff.rfl
    | i16 => exact iff_false_intro imm.isLt.not_ge

/-! ### Illegal words, and no word -/

/-- Settles O38, by what the decoder answers. -/
theorem wordDecodesOrRaisesIllegal : Obligations.WordDecodesOrRaisesIllegal := by
  intro s w hf hw
  cases hd : decode w with
  | ok i => exact .inl ⟨i, rfl, step_eq_exec hw hd⟩
  | error e =>
    have hill : ∀ i, decode w ≠ .ok i := by simp [hd]
    exact .inr ⟨nofun, step_of_illegal hf hw hill⟩

/-- With no word to fetch the machine is idle (R160). -/
theorem step_of_fetch_none {s : State} (h : fetch s = none) : step s = .next s := by
  simp [step, h, idle]

/-- Settles O44: at or beyond the end of the list there is no word to fetch. -/
theorem noWordNoChange : Obligations.NoWordNoChange := fun _ h => step_of_fetch_none (List.getElem?_eq_none h)

/-! ### The halted machine -/

/-- Settles O39: RESET's word resets, no other word is taken, and no instruction but RESET is. -/
theorem haltedMachineTakesOnlyTheResetWord : Obligations.HaltedMachineTakesOnlyTheResetWord := by
  refine ⟨fun s w hf hw hne => step_of_halted hf hw hne, fun s _ hw => ?resetWord, fun s i hf hi => exec_halted hi hf⟩
  case resetWord => exact ⟨_, (step_of_resetWord hw).trans (exec_reset s), rfl, rfl, rfl, rfl⟩

/-- Settles O40: with no word or with a word it does not take, the halted machine's step changes nothing. -/
theorem faultIsFinalForItsRun : Obligations.FaultIsFinalForItsRun := by
  intro s n hf hw
  refine run_of_step_self ?_ n
  cases h : fetch s with
  | none => exact step_of_fetch_none h
  | some w => exact step_of_halted hf h fun hr => hw (h.trans (congrArg some hr))

/-! ### Commands that PROF cannot reach -/

/-- The rule of CBUF and CSUM neither reads nor writes PROF. -/
theorem checksumRange_withProf (seed : Half) (s : State) (q : BitVec 2) :
    checksumRange seed { s with prof := q } = (checksumRange seed s).map (fun u => { u with prof := q }) := by
  by_cases h : rangeInBuf s.addr.toNat s.cnt.toNat
  · rw [checksumRange_ok seed h]
    exact checksumRange_ok (s := { s with prof := q }) seed h
  · rw [checksumRange_error seed (Nat.lt_of_not_le h)]
    exact checksumRange_error (s := { s with prof := q }) seed (Nat.lt_of_not_le h)

/-- The rules of the other fifteen commands neither read nor write PROF (R18, R144). -/
theorem ruleOf_withProf {i : Instr} (hi : i.op ∉ [.bfill, .bsent, .image, .prof, .reset]) (s : State) (q : BitVec 2) :
    ruleOf i { s with prof := q } = (ruleOf i s).map (fun u => { u with prof := q }) := by
  cases i with
  | bfill | bsent | image | prof | reset => exact absurd hi (by simp [Instr.op])
  | cbuf | csum => exact checksumRange_withProf ..
  | bstb =>
    simp only [ruleOf, storePostIncrement]
    split <;> rfl
  | frame =>
    simp only [ruleOf, frameRule]
    split
    · rfl
    · split <;> rfl
  | _ => rfl

/-- Settles O53: such a command is not taken, completes or faults alike in both states. -/
theorem onlyImageCommandsReadProf : Obligations.OnlyImageCommandsReadProf := by
  intro i s t q hop h
  have hi : i ≠ .reset := by
    rintro rfl
    exact hop (by decide)
  have hrule := ruleOf_withProf hop s q
  rcases exec_cases h with ⟨hr, -⟩ | ⟨-, hf, rfl⟩ | ⟨-, hf, u, hu, rfl⟩ | ⟨-, hf, c, hc, rfl⟩
  · exact absurd hr hi
  · exact exec_halted hi hf
  · exact exec_ok (u := { u with prof := q }) hi hf (by rw [hrule, hu]; rfl)
  · exact exec_error hi hf (by rw [hrule, hc]; rfl)

end Sys2Proof
end

section
/-! PROOFS. The three resets (spec/70_reset_and_hazards.md R166, R167): the RESET command, the reset input and power-on are the one operation `resetState`. -/

namespace Sys2Proof

open Sys2Proof.Machine

/-- The reset input is the reset of R166 and nothing else. -/
theorem hardwareReset_eq_resetState (s : State) : hardwareReset s = resetState s := rfl

/-- Power-on is the reset input, with OUT and the host's list empty and pc 0. -/
theorem powerOn_eq_hardwareReset (s : State) :
    powerOn s = { hardwareReset s with out := [], pc := 0, cmds := [] } := rfl

/-- The reset gives every field but OUT, pc, the host's list and the epoch its value at power-on (R29). -/
theorem resetState_eq_reset (s : State) :
    resetState s = { State.reset with out := s.out, pc := s.pc, cmds := s.cmds, bufEpoch := s.bufEpoch + 1 } := rfl

/-- Power-on keeps of the state before it only the count of resets. -/
theorem powerOn_eq_reset (s : State) : powerOn s = { State.reset with bufEpoch := s.bufEpoch + 1 } := by
  rw [powerOn_eq_hardwareReset, hardwareReset_eq_resetState, resetState_eq_reset]
  rfl

/-- Settles O56: each of the three is `resetState`, up to OUT, pc and the host's list. -/
theorem theThreeResetsAgree : Obligations.TheThreeResetsAgree := by
  refine ⟨fun s => ?command, powerOn_eq_hardwareReset, powerOn_eq_reset, fun s => ?out⟩
  case command => rw [exec_reset, hardwareReset_eq_resetState]
  case out => rw [hardwareReset_eq_resetState, resetState_out]

end Sys2Proof
end
